-- ==== Sys2Proof/Word.lean ====
section
/-! DEFINITION. The word types of CORE: 8-bit data and the 16-bit program counter (R5). -/

namespace Sys2Proof

/-- Data width: A, X, Y, SP, P, opcodes and operands are 8 bits, unsigned (R5). -/
abbrev Byte := BitVec 8

/-- Program counter width: 16 bits, unsigned (R5, R14). -/
abbrev Offset := BitVec 16

end Sys2Proof
end

