-- ==== Sys2Proof/Config.lean ====
section
/-! DEFINITION. What is fixed for the machine (R5), and the one parameter the spec leaves open (D18). -/

namespace Sys2Proof

/-- The two values of the spec's parameter `pc_overflow` (92_eei_decisions.md D18). -/
inductive PcOverflow where
  /-- the sum is taken mod 2^16 and the run goes on -/
  | wrap
  /-- the run ends with OutOfBounds(sum mod 2^16) -/
  | fault
  deriving DecidableEq, Repr, Inhabited

/-- What a counter sum past 0xFFFF does: OPEN in the spec (D18), so it has no body here and every statement holds for
both values. No run of an admitted program reaches it (R15). DESIGN CHOICE, log 11; safe. -/
opaque Config.pcOverflow : PcOverflow

/-- The longest program a run admits, 0xFF00 bytes (R29, D1). -/
def Config.maxProgramLength : Nat := 0xFF00

/-- The entry point, offset 0 (R5, R34, R49). -/
def Config.entryPoint : Offset := 0x0000#16

end Sys2Proof
end

