-- ==== Sys2Proof/Syntax.lean ====
section
/-! DEFINITION. The instructions: one constructor per row of spec/opcode_table.json (R2, R42, R45). -/

namespace Sys2Proof

/-- The instructions of CORE. An operand is the byte `opnd` of R41: immediate data, or an unsigned relative offset. -/
inductive Instr where
  /-- HALT (also BRK), opcode 0x00, ends the run (R54) -/
  | halt
  /-- ASL (accumulator), opcode 0x0A (R61) -/
  | asl
  /-- CLC, opcode 0x18 (R68) -/
  | clc
  /-- AND (immediate), opcode 0x29 (R63) -/
  | and (opnd : Byte)
  /-- BMI, opcode 0x30, branch if Negative set (R74) -/
  | bmi (opnd : Byte)
  /-- BVC, opcode 0x50, branch if Overflow clear (R75) -/
  | bvc (opnd : Byte)
  /-- BCC, opcode 0x90, branch if Carry clear (R70) -/
  | bcc (opnd : Byte)
  /-- LDA (immediate), opcode 0xA9 (R66) -/
  | lda (opnd : Byte)
  /-- TAX, opcode 0xAA (R67) -/
  | tax
  /-- BCS, opcode 0xB0, branch if Carry set (R71) -/
  | bcs (opnd : Byte)
  /-- BNE, opcode 0xD0, branch if Zero clear (R73) -/
  | bne (opnd : Byte)
  /-- BEQ, opcode 0xF0, branch if Zero set (R72) -/
  | beq (opnd : Byte)
  /-- BIT, a handler without an opcode (R64, R45) -/
  | bit (opnd : Byte)
  /-- BPL, a handler without an opcode, branch if Negative clear (R76, R45) -/
  | bpl (opnd : Byte)
  deriving DecidableEq, Repr

/-- The two formats of R39: F1 is the opcode alone, F2 an opcode and one operand byte. -/
inductive Format where
  | f1
  | f2
  deriving DecidableEq, Repr

/-- A row of the dispatch table, a "handler descriptor": it records whether an operand byte is consumed and which
instruction is meant (R40). -/
inductive Descriptor where
  | f1 (instr : Instr)
  | f2 (build : Byte → Instr)

/-- Why a byte sequence is no instruction (R44, R52). -/
inductive DecodeError where
  /-- there is no opcode byte -/
  | noOpcode
  /-- the opcode has no table entry (R44) -/
  | unknownOpcode (byte : Byte)
  /-- the opcode takes an operand byte and none follows (R52) -/
  | noOperand (opcode : Byte)
  deriving DecidableEq, Repr

end Sys2Proof
end

