-- ==== Sys2Proof/WellFormed.lean ====
section
/-! DEFINITION. Which instructions a program can hold. -/

namespace Sys2Proof

/-- Reachable through the dispatch table (R8). Every operand byte is legal (R44), so the only check is that the
instruction has an opcode: BIT and BPL have none (R45) and exist as handlers only (R58). -/
def Instr.wellFormed : Instr → Bool
  | .halt => true
  | .asl => true
  | .clc => true
  | .and _ => true
  | .bmi _ => true
  | .bvc _ => true
  | .bcc _ => true
  | .lda _ => true
  | .tax => true
  | .bcs _ => true
  | .bne _ => true
  | .beq _ => true
  | .bit _ => false
  | .bpl _ => false

end Sys2Proof
end

