-- ==== Sys2Proof/Decode.lean ====
section
/-! DEFINITION. The dispatch table (R42), the decoder over bytes, and the encoder. -/

namespace Sys2Proof

/-- The twelve rows of R42, in its order: opcode byte and descriptor. -/
def dispatchTable : List (Byte × Descriptor) :=
  [ (0x00#8, .f1 .halt)
  , (0x0A#8, .f1 .asl)
  , (0x18#8, .f1 .clc)
  , (0x29#8, .f2 .and)
  , (0x30#8, .f2 .bmi)
  , (0x50#8, .f2 .bvc)
  , (0x90#8, .f2 .bcc)
  , (0xA9#8, .f2 .lda)
  , (0xAA#8, .f1 .tax)
  , (0xB0#8, .f2 .bcs)
  , (0xD0#8, .f2 .bne)
  , (0xF0#8, .f2 .beq) ]

/-- The first row whose opcode is `b`: the whole byte is compared and no sub-field is read (R43). -/
def lookupIn (b : Byte) : List (Byte × Descriptor) → Option Descriptor
  | [] => none
  | (opcode, d) :: rows => if b = opcode then some d else lookupIn b rows

/-- "Decode by table lookup on the fetched byte" (R51); none is the table's 'unimplemented' (R42, R44). -/
def lookup (b : Byte) : Option Descriptor := lookupIn b dispatchTable

/-- Length in bytes of a format: 1 for F1 and 2 for F2 (R40). -/
def Format.length : Format → Nat
  | .f1 => 1
  | .f2 => 2

/-- The decoder, total on any bytes: an instruction with the bytes after it, or a refusal by name (R40, R42, R44). -/
def decode : List Byte → Except DecodeError (Instr × List Byte)
  | [] => .error .noOpcode
  | b :: rest =>
    match lookup b with
    | none => .error (.unknownOpcode b)
    | some (.f1 i) => .ok (i, rest)
    | some (.f2 build) =>
      match rest with
      | [] => .error (.noOperand b)
      | opnd :: rest' => .ok (build opnd, rest')

/-- The format of an instruction that stands in a program (R39); BIT and BPL stand in none (R45). -/
def Instr.format : Instr → Option Format
  | .halt => some .f1
  | .asl => some .f1
  | .clc => some .f1
  | .and _ => some .f2
  | .bmi _ => some .f2
  | .bvc _ => some .f2
  | .bcc _ => some .f2
  | .lda _ => some .f2
  | .tax => some .f1
  | .bcs _ => some .f2
  | .bne _ => some .f2
  | .beq _ => some .f2
  | .bit _ => none
  | .bpl _ => none

/-- How many bytes of the program an instruction takes: 1 for F1, 2 for F2 (R40), none for BIT and BPL (R45). -/
def Instr.length (i : Instr) : Nat :=
  match i.format with
  | some f => f.length
  | none => 0

/-- The bytes of a well-formed instruction, from the encodings of R39 and R42. BIT and BPL have no encoding (R45), so
no byte is given for them. -/
def encode : Instr → List Byte
  | .halt => [0x00#8]
  | .asl => [0x0A#8]
  | .clc => [0x18#8]
  | .and opnd => [0x29#8, opnd]
  | .bmi opnd => [0x30#8, opnd]
  | .bvc opnd => [0x50#8, opnd]
  | .bcc opnd => [0x90#8, opnd]
  | .lda opnd => [0xA9#8, opnd]
  | .tax => [0xAA#8]
  | .bcs opnd => [0xB0#8, opnd]
  | .bne opnd => [0xD0#8, opnd]
  | .beq opnd => [0xF0#8, opnd]
  | .bit _ => []
  | .bpl _ => []

/-- The bytes of an instruction numbered as spec/opcode_table.json numbers its bits: the first byte is bits 7..0, the
second bits 15..8, and every bit at `nbits` or above is 0. The longest instruction has two bytes (R40). -/
def tableWordBytes (nbits w : Nat) : List Byte :=
  [BitVec.ofNat 8 (w % 2 ^ nbits), BitVec.ofNat 8 (w % 2 ^ nbits / 256)]

/-- What the decoder reads from an opcode-table word; none where it refuses. -/
def decodeTableWord (nbits w : Nat) : Option Instr :=
  match decode (tableWordBytes nbits w) with
  | .ok (i, _) => some i
  | .error _ => none

end Sys2Proof
end

