-- ==== Sys2Proof/Machine/State.lean ====
section
/-! DEFINITION. The state of the machine as plain data, the reasons a step can stop, and the state after reset. -/

namespace Sys2Proof.Machine

/-- The program buffer of one run (R26, R27): its length `L` and its bytes, as (offset, byte) cells in rising order of
offset. `Memory.read` (Machine/Ops.lean) says what an offset reads as, `Memory.wf` the canonical form. -/
structure Memory where
  /-- `L`, the number of bytes (R27) -/
  length : Nat
  /-- the bytes, by offset -/
  cells : List Host.Cell
  deriving DecidableEq, Repr

/-- The run status (R24, D11): how far the run has come, and the outcome it ended with (R48, R55). -/
inductive RunStatus where
  /-- no run yet: the status after construction (R25) -/
  | noRun
  /-- the loop repeats (R24) -/
  | running
  /-- the normal end (R54); cause code 0 (R79) -/
  | halted
  /-- ended by a fetched byte without a table entry (R80); cause code 1 (R79) -/
  | unknownOpcode (byte : Byte) (offset : Offset)
  /-- ended by a fetch past the end of the program (R81); cause code 2 (R79) -/
  | outOfBounds (offset : Offset)
  deriving DecidableEq, Repr

/-- The state: the six fields of `ProcessorState` (R9), and beside them what the spec keeps outside that record, the
program buffer (R26; log 1) and the run status (R24; log 3). -/
structure State where
  /-- `A`, the accumulator (R10) -/
  a : Byte
  /-- `X`, index register (R11) -/
  x : Byte
  /-- `Y`, index register, reserved (R12) -/
  y : Byte
  /-- `SP`, stack pointer, reserved (R13) -/
  sp : Byte
  /-- `PC`, the offset of the next byte to fetch (R14) -/
  pc : Offset
  /-- `P`, the status register: bit 0 Carry, bit 1 Zero, bit 6 Overflow, bit 7 Negative, bits 2 to 5 unused (R16) -/
  p : Byte
  /-- the program of the run (R26, R27) -/
  program : Memory
  /-- the run status (R24) -/
  status : RunStatus
  deriving DecidableEq, Repr

/-- CORE's two error kinds, and "No other error kinds exist in this core" (R79). A step answers one of them when the
run has already ended with it: the error itself is recorded in the state by the step that raised it (log 4). -/
inductive Fault where
  /-- Raised by `step` from a state whose run ended with this UnknownOpcode (R80). Safe: the core takes no step there. -/
  | unknownOpcode (byte : Byte) (offset : Offset)
  /-- Raised by `step` from a state whose run ended with this OutOfBounds (R81). Safe: the core takes no step there. -/
  | outOfBounds (offset : Offset)
  deriving DecidableEq, Repr

/-- What the model turns away by name. -/
inductive Refusal where
  /-- Raised by an arm of `exec` whose instruction has no meaning yet; no arm of this model does. Safe. -/
  | notModelled (mnemonic : String)
  /-- Raised by `start` and by `step` for a program longer than 0xFF00 bytes: "A model refuses a program with
  L > 0xFF00 by name and does not run it" (R29). Safe: longer programs get no claim (D1). -/
  | programTooLong (length : Nat)
  /-- Raised by `start` on a state whose run has not ended: the host has no such move (R94, D14). Safe within the
  spec: a host that nests runs is outside every claim. -/
  | nestedInterpret
  deriving DecidableEq, Repr

/-- The machine right after construction: every field of `ProcessorState` is zero and there is no run yet (R25, R91).
No program has been handed over, so the buffer is empty (DESIGN CHOICE, log 13). -/
def State.reset : State where
  a := 0x00#8
  x := 0x00#8
  y := 0x00#8
  sp := 0x00#8
  pc := 0x0000#16
  p := 0x00#8
  program := { length := 0, cells := [] }
  status := .noRun

end Sys2Proof.Machine
end

