-- ==== Sys2Proof/Machine/Ops.lean ====
section
/-! DEFINITION. The named operations over the program buffer, the registers and the run status: reading, loading,
fetching, ending a run with an outcome, and starting one again. -/

namespace Sys2Proof.Machine

/-! ### The program buffer -/

/-- What an offset inside the buffer reads as when no cell is listed for it. A buffer of length `L` has a byte at every
offset below `L` (R27), so this only says how a 0x00 byte of the program is written down (DESIGN CHOICE, log 2). -/
def Memory.unlisted : Byte := 0x00#8

/-- The byte a cell list gives for an offset. -/
def Memory.lookupCell (off : Nat) : List Host.Cell → Byte
  | [] => Memory.unlisted
  | (o, b) :: cells => if off = o then b else Memory.lookupCell off cells

/-- `MemRead(off, 1)` of R28: the byte at `off` when `off < L`; none is the out-of-range indication, on which the
caller raises OutOfBounds. It has no side effect (R33). -/
def Memory.read (m : Memory) (off : Nat) : Option Byte :=
  if off < m.length then some (Memory.lookupCell off m.cells) else none

/-- The bytes the buffer holds at `off`, `off + 1`, ... : at most `n` of them, fewer at the end of the program. -/
def Memory.bytesAt (m : Memory) : Nat → Nat → List Byte
  | _, 0 => []
  | off, n + 1 =>
    match m.read off with
    | some b => b :: m.bytesAt (off + 1) n
    | none => []

/-- The cells of a byte sequence from offset `off` on; a byte equal to `Memory.unlisted` is not listed. -/
def Memory.cellsFrom : Nat → List Byte → List Host.Cell
  | _, [] => []
  | off, b :: bytes =>
    if b = Memory.unlisted then Memory.cellsFrom (off + 1) bytes else (off, b) :: Memory.cellsFrom (off + 1) bytes

/-- The program buffer that holds a byte sequence handed over by the host (R26, R48). CORE itself writes no memory
(R7, R30), so this is the only operation that makes a buffer. -/
def Memory.ofBytes (bytes : List Byte) : Memory where
  length := bytes.length
  cells := Memory.cellsFrom 0 bytes

/-- Cells in rising order of offset, from `low` on and below `len`, none equal to what an unlisted offset reads as. -/
def Memory.cellsWf (len : Nat) : Nat → List Host.Cell → Bool
  | _, [] => true
  | low, (o, b) :: cells =>
    decide (low ≤ o) && decide (o < len) && decide (b ≠ Memory.unlisted) && Memory.cellsWf len (o + 1) cells

/-- The canonical form of a program buffer: equal programs are equal data. -/
def Memory.wf (m : Memory) : Bool := Memory.cellsWf m.length 0 m.cells

/-! ### Registers and run status -/

/-- `A <- v` (R7). -/
def State.setA (s : State) (v : Byte) : State := { s with a := v }

/-- `X <- v` (R7). -/
def State.setX (s : State) (v : Byte) : State := { s with x := v }

/-- `PC <- v` (R7). -/
def State.setPc (s : State) (v : Offset) : State := { s with pc := v }

/-- `P <- v`; no instruction does this as a whole (R23), the flag unit writes single bits through it. -/
def State.setP (s : State) (v : Byte) : State := { s with p := v }

/-- A new run status (R24). -/
def State.setStatus (s : State) (v : RunStatus) : State := { s with status := v }

/-- The host's program for the next run (R26). -/
def State.setProgram (s : State) (m : Memory) : State := { s with program := m }

/-- `halt` (R7, R54): the run ends `Halted`, the registers stay as they are. -/
def State.halt (s : State) : State := s.setStatus .halted

/-! ### Taking an error (R79 to R85)

CORE has no trap entry: nothing is saved and no handler is entered. An error ends the run, and the state keeps every
effect made before it (R57, R84). -/

/-- `raise UnknownOpcode(byte, offset)` (R80). The opcode fetch has already moved `PC` to `offset + 1` (R51). -/
def State.raiseUnknownOpcode (s : State) (byte : Byte) (offset : Offset) : State :=
  s.setStatus (.unknownOpcode byte offset)

/-- `raise OutOfBounds(offset)` (R81): the state at the end has `PC = offset` (D2; UNVERIFIED in the source, log 7). -/
def State.raiseOutOfBounds (s : State) (offset : Offset) : State :=
  (s.setPc offset).setStatus (.outOfBounds offset)

/-- What the start of a run does to the state: the host's program is in place and `PC <- 0`; `A`, `X`, `Y`, `SP` and `P`
keep their values (R49, R92, D4; log 9). The host reaches it through `start` only. -/
def State.beginRun (s : State) (m : Memory) : State :=
  ((s.setProgram m).setPc Config.entryPoint).setStatus .running

/-- The host starts a run (R48, R49, R93), also the only way on after an end (R85): not on a state whose run has not ended (R94), and not with a program that is
not admitted (R29). -/
def start (program : List Byte) (s : State) : Host.Outcome State Fault Refusal :=
  if s.status = .running then .refused .nestedInterpret
  else if Config.maxProgramLength < program.length then .refused (.programTooLong program.length)
  else .next (s.beginRun (Memory.ofBytes program))

/-- The cause code of an ended run: 0 Halted, 1 UnknownOpcode, 2 OutOfBounds (R79, D15); none while there is no outcome. -/
def RunStatus.causeCode : RunStatus → Option Nat
  | .noRun => none
  | .running => none
  | .halted => some 0
  | .unknownOpcode _ _ => some 1
  | .outOfBounds _ => some 2

/-! ### Fetch -/

/-- The program counter after one byte: `PC + 1` (R50, R52). A byte was fetched at `PC < L <= 0xFF00`, so this does
not wrap in a step (R15, R29). -/
def State.advancePc (s : State) : State := s.setPc (s.pc + 1#16)

/-- One fetch (R50, R52): the byte at `PC`, with `PC` moved on; or the state in which the run has ended with
OutOfBounds at this offset, `PC` not incremented (D2). -/
def State.fetchByte (s : State) : Except State (Byte × State) :=
  match s.program.read s.pc.toNat with
  | some b => .ok (b, s.advancePc)
  | none => .error (s.raiseOutOfBounds s.pc)

/-- Opcode fetch, decode and operand fetch in the order of R50 to R52 and R83: the instruction with the state its
handler sees, `PC` already past it (R53); or the state in which the run has ended with an error. -/
def State.fetchInstr (s : State) : Except State (Instr × State) :=
  match s.fetchByte with
  | .error t => .error t
  | .ok (op, s1) =>
    match lookup op with
    | none => .error (s1.raiseUnknownOpcode op s.pc)
    | some (.f1 i) => .ok (i, s1)
    | some (.f2 build) =>
      match s1.fetchByte with
      | .error t => .error t
      | .ok (opnd, s2) => .ok (build opnd, s2)

end Sys2Proof.Machine
end

