-- ==== Sys2Proof/Machine/Operands.lean ====
section
/-! DEFINITION. The two uses of the operand byte (R41): immediate data, and an unsigned relative offset. -/

namespace Sys2Proof.Machine

/-- Immediate: "operand value used directly as data", with no extension (R41). -/
def immediate (opnd : Byte) : Byte := opnd

/-- `zext_16(v)`: eight zero bits on top (R6). -/
def zext16 (v : Byte) : Offset := v.setWidth 16

/-- Relative: the offset `zext_16(opnd)`, 0 to 255; "no sign extension is performed" (R41). -/
def relativeOffset (opnd : Byte) : Offset := zext16 opnd

/-- A counter sum past 0xFFFF, given mod 2^16: the spec's open parameter decides (D18; log 11). Either way the counter
is left at the sum mod 2^16: under `wrap` by D18, under `fault` because OutOfBounds leaves `PC = offset` (R81). -/
def State.overflowPc (s : State) (wrapped : Offset) : State :=
  match Config.pcOverflow with
  | .wrap => s.setPc wrapped
  | .fault => s.raiseOutOfBounds wrapped

/-- `PC <- PC + d` (R69). The exact sum is taken; past 0xFFFF the open parameter decides. -/
def State.addToPc (s : State) (d : Offset) : State :=
  if s.pc.toNat + d.toNat < 2 ^ 16 then s.setPc (s.pc + d) else s.overflowPc (s.pc + d)

end Sys2Proof.Machine
end

