-- ==== Sys2Proof/Machine/Flags.lean ====
section
/-! DEFINITION. The flags of `P` (R16) and the flag computation unit (R60). Every writer changes the bits it names and
no other, so `P[5:2]` is never touched (R17). -/

namespace Sys2Proof.Machine

/-- `v[i] <- b`: one bit of a byte is written, the others stay (R7). -/
def writeBit (v : Byte) (i : Nat) (b : Bool) : Byte :=
  if b then v ||| (1#8 <<< i) else v &&& ~~~(1#8 <<< i)

/-- Bit 0 of `P` is Carry (R16). -/
def carryBit : Nat := 0

/-- Bit 1 of `P` is Zero (R16). -/
def zeroBit : Nat := 1

/-- Bit 6 of `P` is Overflow (R16). -/
def overflowBit : Nat := 6

/-- Bit 7 of `P` is Negative (R16). -/
def negativeBit : Nat := 7

/-- `P.C` (R18). -/
def State.carry (s : State) : Bool := s.p.getLsbD carryBit

/-- `P.Z` (R19). -/
def State.zero (s : State) : Bool := s.p.getLsbD zeroBit

/-- `P.V` (R20). -/
def State.overflow (s : State) : Bool := s.p.getLsbD overflowBit

/-- `P.N` (R21). -/
def State.negative (s : State) : Bool := s.p.getLsbD negativeBit

/-- `P.C <- b`. -/
def State.setCarry (s : State) (b : Bool) : State := s.setP (writeBit s.p carryBit b)

/-- `P.Z <- b`. -/
def State.setZero (s : State) (b : Bool) : State := s.setP (writeBit s.p zeroBit b)

/-- `P.V <- b`. -/
def State.setOverflow (s : State) (b : Bool) : State := s.setP (writeBit s.p overflowBit b)

/-- `P.N <- b`. -/
def State.setNegative (s : State) (b : Bool) : State := s.setP (writeBit s.p negativeBit b)

/-- The Zero rule of the flag unit: the value is 0x00 (R60). -/
def isZero (v : Byte) : Bool := decide (v = 0x00#8)

/-- The Negative rule of the flag unit: bit 7 of the value (R60). -/
def isNegative (v : Byte) : Bool := v.getLsbD 7

/-- `setZN(v)` (R60): used by LDA, AND, TAX and ASL; writes `P.Z` and `P.N` only. -/
def State.setZN (s : State) (v : Byte) : State := (s.setZero (isZero v)).setNegative (isNegative v)

end Sys2Proof.Machine
end

