-- ==== Sys2Proof/Machine/Alu.lean ====
section
/-! DEFINITION. The ALU's three operations: ASL, AND and BIT (41_alu.md). -/

namespace Sys2Proof.Machine

/-- `(A << 1) mod 2^8`, the 8-bit result of ASL (R61, D3; UNVERIFIED in the source, log 8). -/
def shiftLeftOne (a : Byte) : Byte := a <<< 1

/-- ASL (R61): Carry is the LOW bit of the result, so always 0 (R62, C1, C2); Zero and Negative from the result. -/
def execAsl (s : State) : Host.Outcome State Fault Refusal :=
  .next (((s.setA (shiftLeftOne s.a)).setCarry ((shiftLeftOne s.a).getLsbD 0)).setZN (shiftLeftOne s.a))

/-- AND immediate (R63). -/
def execAnd (opnd : Byte) (s : State) : Host.Outcome State Fault Refusal :=
  .next ((s.setA (s.a &&& immediate opnd)).setZN (s.a &&& immediate opnd))

/-- BIT (R64), a handler without an opcode: Zero from `A & opnd` (C12), Overflow and Negative from bits 6 and 7 of the
operand; `A` is not written. -/
def execBit (opnd : Byte) (s : State) : Host.Outcome State Fault Refusal :=
  .next (((s.setZero (isZero (s.a &&& opnd))).setOverflow (opnd.getLsbD 6)).setNegative (opnd.getLsbD 7))

end Sys2Proof.Machine
end

