-- ==== Sys2Proof/Machine/Branch.lean ====
section
/-! DEFINITION. The conditional relative branches (44_branch.md). -/

namespace Sys2Proof.Machine

/-- `Branch(f, e, opnd)` of R69, with `flag` the value of `P.f`: taken when the flag equals `e`, it adds the unsigned
offset to the `PC` the state holds, which in a step is already past the branch (R53); not taken, it changes nothing. -/
def State.branch (s : State) (flag e : Bool) (opnd : Byte) : State :=
  if flag = e then s.addToPc (relativeOffset opnd) else s

/-- BCC: `Branch(C, 0, opnd)` (R70). -/
def execBcc (opnd : Byte) (s : State) : Host.Outcome State Fault Refusal := .next (s.branch s.carry false opnd)

/-- BCS: `Branch(C, 1, opnd)` (R71). -/
def execBcs (opnd : Byte) (s : State) : Host.Outcome State Fault Refusal := .next (s.branch s.carry true opnd)

/-- BEQ: `Branch(Z, 1, opnd)` (R72). -/
def execBeq (opnd : Byte) (s : State) : Host.Outcome State Fault Refusal := .next (s.branch s.zero true opnd)

/-- BNE: `Branch(Z, 0, opnd)` (R73). -/
def execBne (opnd : Byte) (s : State) : Host.Outcome State Fault Refusal := .next (s.branch s.zero false opnd)

/-- BMI: `Branch(N, 1, opnd)` (R74). -/
def execBmi (opnd : Byte) (s : State) : Host.Outcome State Fault Refusal := .next (s.branch s.negative true opnd)

/-- BVC: `Branch(V, 0, opnd)` (R75). -/
def execBvc (opnd : Byte) (s : State) : Host.Outcome State Fault Refusal := .next (s.branch s.overflow false opnd)

/-- BPL: `Branch(N, 0, opnd)` (R76), a handler without an opcode. -/
def execBpl (opnd : Byte) (s : State) : Host.Outcome State Fault Refusal := .next (s.branch s.negative false opnd)

end Sys2Proof.Machine
end

