-- ==== Sys2Proof/Machine/FlagControl.lean ====
section
/-! DEFINITION. The one explicit flag instruction: CLC (43_flag_control.md). -/

namespace Sys2Proof.Machine

/-- CLC (R68): `P.C <- 0`, nothing else. -/
def execClc (s : State) : Host.Outcome State Fault Refusal := .next (s.setCarry false)

end Sys2Proof.Machine
end

