-- ==== Sys2Proof/Machine/Halt.lean ====
section
/-! DEFINITION. HALT, the instruction that belongs to the execution loop itself (R54). -/

namespace Sys2Proof.Machine

/-- HALT (R54): the run ends `Halted`; no register and no flag is written. -/
def execHalt (s : State) : Host.Outcome State Fault Refusal := .next s.halt

end Sys2Proof.Machine
end

