-- ==== Sys2Proof/Machine/LoadTransfer.lean ====
section
/-! DEFINITION. The load and the register transfer: LDA and TAX (42_load_transfer.md). -/

namespace Sys2Proof.Machine

/-- LDA immediate (R66). -/
def execLda (opnd : Byte) (s : State) : Host.Outcome State Fault Refusal :=
  .next ((s.setA (immediate opnd)).setZN (immediate opnd))

/-- TAX (R67): Zero and Negative from the new `X`. -/
def execTax (s : State) : Host.Outcome State Fault Refusal := .next ((s.setX s.a).setZN s.a)

end Sys2Proof.Machine
end

