-- ==== Sys2Proof/Machine/Dispatch.lean ====
section
/-! DEFINITION. The handlers, one arm per instruction (R53, R56, R58). A handler does no fetch and no PC advance. -/

namespace Sys2Proof.Machine

/-- The handler of each instruction as a pure function over any state (R58). -/
def exec (i : Instr) (s : State) : Host.Outcome State Fault Refusal :=
  match i with
  | .halt => Sys2Proof.Machine.execHalt s
  | .asl => Sys2Proof.Machine.execAsl s
  | .clc => Sys2Proof.Machine.execClc s
  | .and opnd => Sys2Proof.Machine.execAnd opnd s
  | .bmi opnd => Sys2Proof.Machine.execBmi opnd s
  | .bvc opnd => Sys2Proof.Machine.execBvc opnd s
  | .bcc opnd => Sys2Proof.Machine.execBcc opnd s
  | .lda opnd => Sys2Proof.Machine.execLda opnd s
  | .tax => Sys2Proof.Machine.execTax s
  | .bcs opnd => Sys2Proof.Machine.execBcs opnd s
  | .bne opnd => Sys2Proof.Machine.execBne opnd s
  | .beq opnd => Sys2Proof.Machine.execBeq opnd s
  | .bit opnd => Sys2Proof.Machine.execBit opnd s
  | .bpl opnd => Sys2Proof.Machine.execBpl opnd s

end Sys2Proof.Machine
end

