-- ==== Sys2Proof/Machine/Sequencer.lean ====
section
/-! DEFINITION. The fetch-decode-execute sequencer: one pass of the loop of R56. -/

namespace Sys2Proof.Machine

/-- One pass of the loop while the run is on: fetch, decode, operand fetch, handler (R50 to R53). An error of the fetch
is a next state in which the run has ended (R80, R81). A program that is not admitted is not run (R29). -/
def runningStep (s : State) : Host.Outcome State Fault Refusal :=
  if s.program.length ≤ Config.maxProgramLength then
    match s.fetchInstr with
    | .error t => .next t
    | .ok (i, t) => exec i t
  else .refused (.programTooLong s.program.length)

/-- One step by run status. Without a run, or after HALT, the core holds its state (R55, R90; DESIGN CHOICE, log 5).
After an error it takes no step, and the answer is the error it ended with (R80, R81; DESIGN CHOICE, log 4). -/
def sequencerStep (s : State) : Host.Outcome State Fault Refusal :=
  match s.status with
  | .running => runningStep s
  | .noRun => .next s
  | .halted => .next s
  | .unknownOpcode byte offset => .fault (.unknownOpcode byte offset)
  | .outOfBounds offset => .fault (.outOfBounds offset)

end Sys2Proof.Machine
end

