-- ==== Sys2Proof/Machine/Step.lean ====
section
/-! DEFINITION. The step of the machine, and how one instruction is placed where the next step fetches it. -/

namespace Sys2Proof.Machine

/-- One step: one pass of the loop, fetching and executing one instruction (R8, R56). -/
def step (s : State) : Host.Outcome State Fault Refusal := sequencerStep s

/-- The machine with an opcode-table word as the program of a run that is about to take its first step: the host's own
`start`, since a program comes from outside (R48, R49; log 13). On a state whose run has not ended the host has no such
move (R94), so there nothing is placed and the state stays as it is (log 20). -/
def State.withFetchWord (s : State) (nbits w : Nat) : State :=
  match start (tableWordBytes nbits w) s with
  | .next t => t
  | .fault _ => s
  | .refused _ => s

end Sys2Proof.Machine
end

