-- ==== Sys2Proof/Machine/Interpret.lean ====
section
/-! DEFINITION. The boundary operation `interpret(program, state)` (R48): the host's start of a run
(`start`, Machine/Ops.lean) and the steps to its end. -/

namespace Sys2Proof.Machine

/-- `k` steps one after the other, stopping at the first fault or refusal. -/
def steps : Nat → State → Host.Outcome State Fault Refusal
  | 0, s => .next s
  | k + 1, s =>
    match step s with
    | .next t => steps k t
    | .fault r => .fault r
    | .refused r => .refused r

/-- Steps until the run has ended, at most `fuel` of them (R55). -/
def runToEnd : Nat → State → Host.Outcome State Fault Refusal
  | 0, s => .next s
  | fuel + 1, s =>
    match step s with
    | .next t => if t.status = .running then runToEnd fuel t else .next t
    | .fault r => .fault r
    | .refused r => .refused r

/-- `interpret(program, state)` (R48, R56): its answer is the state at the end, whose run status is the outcome and
whose registers are what the host sees (R57). `L + 1` steps are enough for every admitted program (R59). -/
def interpret (program : List Byte) (s : State) : Host.Outcome State Fault Refusal :=
  match start program s with
  | .next t => runToEnd (program.length + 1) t
  | .fault r => .fault r
  | .refused r => .refused r

end Sys2Proof.Machine
end

