-- ==== Sys2Proof/Safety.lean ====
section
/-! DEFINITION. The terms claims are stated in: opcode sets, admitted running states, what a step leaves unchanged, the
invariant of the machine. -/

namespace Sys2Proof

/-- `F1set` of R56: the opcodes without an operand. -/
def f1Opcodes : List Byte := [0x00#8, 0x0A#8, 0x18#8, 0xAA#8]

/-- `F2set` of R56: the opcodes with an operand byte. -/
def f2Opcodes : List Byte := [0x29#8, 0x30#8, 0x50#8, 0x90#8, 0xA9#8, 0xB0#8, 0xD0#8, 0xF0#8]

/-- The instructions that write `A` (R10). -/
def Instr.writesA (i : Instr) : Bool := i matches .lda _ | .and _ | .asl

/-- The instructions that read `A` (R10). -/
def Instr.readsA (i : Instr) : Bool := i matches .and _ | .asl | .tax | .bit _

/-- The instructions that write Carry (R18). -/
def Instr.writesCarry (i : Instr) : Bool := i matches .asl | .clc

/-- The instructions that write Zero and Negative (R19, R21). -/
def Instr.writesZN (i : Instr) : Bool := i matches .lda _ | .and _ | .tax | .asl | .bit _

namespace Machine

/-- A run of an admitted program is on: the next step fetches (R29, R55). -/
abbrev State.Fetching (s : State) : Prop := s.status = .running ∧ s.program.length ≤ 0xFF00

/-- The run has ended in one of its three ways (R55). -/
def RunStatus.ended : RunStatus → Bool
  | .noRun => false
  | .running => false
  | .halted => true
  | .unknownOpcode _ _ => true
  | .outOfBounds _ => true

/-- Every byte of the program reads as before, and its length is the same (R26, R37). -/
def SameProgram (s t : State) : Prop :=
  t.program.length = s.program.length ∧ ∀ off, t.program.read off = s.program.read off

/-- Every bit of `P` but the listed ones is as before. -/
def FlagsKeptBut (written : List Nat) (s t : State) : Prop :=
  ∀ j, j ∉ written → t.p.getLsbD j = s.p.getLsbD j

/-- What no data instruction touches: `Y`, `SP`, `PC`, the run status and the program. -/
def ControlKept (s t : State) : Prop :=
  t.y = s.y ∧ t.sp = s.sp ∧ t.pc = s.pc ∧ t.status = s.status ∧ SameProgram s t

/-- What no branch touches: every register but `PC`, all of `P`, and the program (R69). -/
def DataKept (s t : State) : Prop :=
  t.a = s.a ∧ t.x = s.x ∧ t.y = s.y ∧ t.sp = s.sp ∧ t.p = s.p ∧ SameProgram s t

/-- The condition and the offset of a branch in a state, from R70 to R76; none for another instruction. -/
def branchCase (i : Instr) (s : State) : Option (Bool × Byte) :=
  match i with
  | .bcc o => some (!s.p.getLsbD 0, o)
  | .bcs o => some (s.p.getLsbD 0, o)
  | .beq o => some (s.p.getLsbD 1, o)
  | .bne o => some (!s.p.getLsbD 1, o)
  | .bmi o => some (s.p.getLsbD 7, o)
  | .bvc o => some (!s.p.getLsbD 6, o)
  | .bpl o => some (!s.p.getLsbD 7, o)
  | .halt => none
  | .asl => none
  | .clc => none
  | .and _ => none
  | .lda _ => none
  | .tax => none
  | .bit _ => none

/-- The handler of `i` behaves in `s` as `Branch` of R69 with condition `cond` and offset `opnd`, for a sum that fits the
counter: taken, it completes with `PC + opnd` and touches nothing else; not taken, it completes with `s` as it is. -/
def BranchesOn (cond : Bool) (opnd : Byte) (i : Instr) (s : State) : Prop :=
  (cond = true → s.pc.toNat + opnd.toNat < 65536 →
    ∃ t, exec i s = .next t ∧ t.pc.toNat = s.pc.toNat + opnd.toNat ∧ t.status = s.status ∧ DataKept s t) ∧
  (cond = false → exec i s = .next s)

/-- The next state of an outcome changed by `f`; a fault or a refusal as it is. -/
def mapNext (f : State → State) : Host.Outcome State Fault Refusal → Host.Outcome State Fault Refusal
  | .next s => .next (f s)
  | .fault r => .fault r
  | .refused r => .refused r

/-- Zero and Negative describe the accumulator (the reading of R67's last corner case). -/
def ZnFollowA (s : State) : Prop :=
  s.p.getLsbD 1 = decide (s.a = 0x00#8) ∧ s.p.getLsbD 7 = s.a.getLsbD 7

/-- What an ended run's status says about the counter and the program (R54, R80, R81). -/
def StatusTrue (s : State) : Prop :=
  match s.status with
  | .noRun => True
  | .running => True
  | .halted => 0 < s.pc.toNat ∧ s.program.read (s.pc.toNat - 1) = some 0x00#8
  | .unknownOpcode byte offset =>
    s.pc.toNat = offset.toNat + 1 ∧ s.program.read offset.toNat = some byte ∧ byte ∉ f1Opcodes ++ f2Opcodes
  | .outOfBounds offset => s.pc = offset ∧ s.program.length ≤ offset.toNat

/-- The invariant: the program buffer is in its canonical form and admitted (R29), `PC` is at most `L + 0xFF` (R15), and
the run status tells the truth. -/
def State.Inv (s : State) : Prop :=
  s.program.wf = true ∧ s.program.length ≤ 0xFF00 ∧ s.pc.toNat ≤ s.program.length + 0xFF ∧ StatusTrue s

end Machine

end Sys2Proof
end

