-- ==== Sys2Proof/Certificates/Slice0/Obligations.lean ====
section
/-! DEFINITION. The statements for the provers. Bits of `P` are named by number: 0 Carry, 1 Zero, 6 Overflow, 7 Negative
(R16). Each docstring names the rule of spec/ it formalises. -/

open Sys2Proof Sys2Proof.Machine

/-! ### Reset and the start of a run -/

/-- R91: construction zeroes every field, so every flag and every unused bit of `P` is 0. -/
def Obligations.ConstructionZeroesEveryField : Prop :=
  State.reset.a = 0x00#8 ∧ State.reset.x = 0x00#8 ∧ State.reset.y = 0x00#8 ∧ State.reset.sp = 0x00#8 ∧
  State.reset.pc = 0x0000#16 ∧ State.reset.p = 0x00#8 ∧ ∀ j, State.reset.p.getLsbD j = false

/-- The invariant `State.Inv` holds at reset. The model's empty buffer at reset is its choice (log 13), and so is the
canonical form (log 2). -/
def Obligations.ResetMeetsTheInvariant : Prop := State.reset.Inv

/-- R49, R92: a started run has `PC = 0`, the only entry point; `A`, `X`, `Y`, `SP` and `P` keep the values they hold,
whatever state the host hands over, one whose run ended with an error among them. The program is the host's. That the
registers are kept is the spec's own decision D4 (log 9). -/
def Obligations.RunStartResetsOnlyThePc : Prop :=
  ∀ (program : List Byte) (s : State), s.status ≠ .running → program.length ≤ 0xFF00 →
    ∃ t, start program s = .next t ∧ t.pc = 0x0000#16 ∧ t.a = s.a ∧ t.x = s.x ∧ t.y = s.y ∧ t.sp = s.sp ∧ t.p = s.p ∧
      t.status = .running ∧ t.program.length = program.length ∧ ∀ off, t.program.read off = program[off]?

/-- R29, R94: what the host cannot start, that no step runs a program that is not admitted, and that the empty program ends
OutOfBounds at 0. The bound and the missing move are the spec's own decisions D1 and D14 (logs 6 and 16); which of the two
refusals comes first is the model's choice (log 18). That the empty program ends so is R29's own inference; its PC after the
failed fetch is decision D2 (log 7), and its registers kept at the start decision D4 (log 9). -/
def Obligations.UnadmittedRunsAreRefused : Prop :=
  (∀ (program : List Byte) (s : State), s.status = .running → start program s = .refused .nestedInterpret) ∧
  (∀ (program : List Byte) (s : State), s.status ≠ .running → 0xFF00 < program.length →
    start program s = .refused (.programTooLong program.length)) ∧
  (∀ s : State, s.status = .running → 0xFF00 < s.program.length →
    step s = .refused (.programTooLong s.program.length)) ∧
  (∀ s : State, s.status ≠ .running →
    interpret [] s = .next { s with pc := 0x0000#16, program := ⟨0, []⟩, status := .outOfBounds 0x0000#16 })

/-- Every started run meets the invariant, whatever the state it starts from. The length bound is the spec's own decision D1
(log 6), the canonical form the model's choice (log 2). -/
def Obligations.RunStartMeetsTheInvariant : Prop :=
  ∀ (program : List Byte) (s t : State), start program s = .next t → t.Inv

/-! ### Decoding -/

/-- Words written out from R42: each decodes to its instruction, and the table recognises exactly these twelve opcodes; so
the bytes a 6502 gives BPL and BIT are unknown (R45). -/
def Obligations.WordsOfTheOpcodeMapDecode : Prop :=
  decode [0b00000000#8] = .ok (.halt, []) ∧
  decode [0b00001010#8] = .ok (.asl, []) ∧
  decode [0b00011000#8] = .ok (.clc, []) ∧
  decode [0b10101010#8] = .ok (.tax, []) ∧
  (∀ o, decode [0b00101001#8, o] = .ok (.and o, []) ∧ decode [0b10101001#8, o] = .ok (.lda o, []) ∧
    decode [0b00110000#8, o] = .ok (.bmi o, []) ∧ decode [0b01010000#8, o] = .ok (.bvc o, []) ∧
    decode [0b10010000#8, o] = .ok (.bcc o, []) ∧ decode [0b10110000#8, o] = .ok (.bcs o, []) ∧
    decode [0b11010000#8, o] = .ok (.bne o, []) ∧ decode [0b11110000#8, o] = .ok (.beq o, [])) ∧
  (∀ b ∈ [0x10#8, 0x24#8, 0x2C#8], decode [b, 0x00#8] = .error (.unknownOpcode b)) ∧
  ∀ b, lookup b = none ↔ b ∉ f1Opcodes ++ f2Opcodes

/-- Decode after encode: every well-formed instruction, with every operand, is read back from its bytes, and the bytes
after it are left (R40, R42). -/
def Obligations.DecodeOfEncode : Prop :=
  ∀ (i : Instr) (rest : List Byte), i.wellFormed = true → decode (encode i ++ rest) = .ok (i, rest)

/-- Encode after decode: what the decoder reads has the bytes it was read from, and has an opcode; so BIT and BPL are
never decoded (R45). -/
def Obligations.EncodeOfDecode : Prop :=
  ∀ (bytes rest : List Byte) (i : Instr), decode bytes = .ok (i, rest) →
    encode i ++ rest = bytes ∧ i.wellFormed = true ∧ (∀ o, i ≠ .bit o) ∧ ∀ o, i ≠ .bpl o

/-- Two program buffers in the canonical form that read alike are the same data. A convention of the model (log 2). -/
def Obligations.EqualProgramsAreEqualData : Prop :=
  ∀ m n : Memory, m.wf = true → n.wf = true → (∀ off, m.read off = n.read off) → m = n

/-! ### Fetch, errors and the step -/

/-- R28: `MemRead(off, 1)` returns `program[off]` when `off < L`, and otherwise OutOfBounds(off) is raised; reading has no
other outcome. -/
def Obligations.MemReadGivesTheProgramByte : Prop :=
  (∀ (program : List Byte) (off : Nat) (b : Byte), program[off]? = some b →
    (Memory.ofBytes program).read off = some b) ∧
  (∀ (program : List Byte) (off : Nat), program.length ≤ off → (Memory.ofBytes program).read off = none) ∧
  ∀ (program : List Byte) (s : State), s.program = Memory.ofBytes program → program.length ≤ s.pc.toNat →
    ∃ t, s.fetchByte = .error t ∧ t.status = .outOfBounds s.pc

/-- R50: inside the program the fetch gives the host's byte and adds 1 to `PC`, without wrapping; past its end it
raises OutOfBounds at `PC`, and the increment does not happen, which is the spec's own decision D2 (log 7). -/
def Obligations.FetchReadsTheProgram : Prop :=
  ∀ (program : List Byte) (s : State), program.length ≤ 0xFF00 → s.program = Memory.ofBytes program →
    (∀ b, program[s.pc.toNat]? = some b → ∃ t, s.fetchByte = .ok (b, t) ∧ t = { s with pc := s.pc + 1#16 } ∧
      t.pc.toNat = s.pc.toNat + 1) ∧
    (program.length ≤ s.pc.toNat → s.fetchByte = .error { s with status := .outOfBounds s.pc })

/-- R44, R51, R80: 244 byte values are unknown; fetching one as an opcode ends the run with UnknownOpcode, which carries
the byte and the offset it was fetched from; `PC` is one past it, no operand is fetched and nothing else changes. Every
operand byte of an F2 instruction is legal. That `PC` is one past it and that no operand is fetched are the spec's own
inferences (R51, R44). -/
def Obligations.UnknownOpcodeEndsTheRun : Prop :=
  (∀ (s : State) (b : Byte), s.Fetching → s.program.read s.pc.toNat = some b → b ∉ f1Opcodes ++ f2Opcodes →
    ∃ t, step s = .next t ∧ t = { s with pc := s.pc + 1#16, status := .unknownOpcode b s.pc } ∧
      t.pc.toNat = s.pc.toNat + 1) ∧
  (List.range 256).countP (fun n => (lookup (BitVec.ofNat 8 n)).isNone) = 244 ∧
  ∀ op ∈ f2Opcodes, ∀ (o : Byte) (rest : List Byte), ∃ i, decode (op :: o :: rest) = .ok (i, rest)

/-- R81: the two ways to run past the end, an opcode fetch at `PC >= L` and an operand fetch at `L`. Either ends the run
with OutOfBounds at the offset of the fetch, with `PC` at that offset, and changes nothing else. `PC` at that offset is the
spec's own decision D2 (log 7). -/
def Obligations.FetchPastTheEndEndsTheRun : Prop :=
  (∀ s : State, s.Fetching → s.program.length ≤ s.pc.toNat → step s = .next { s with status := .outOfBounds s.pc }) ∧
  (∀ (s : State) (op : Byte), s.Fetching → s.program.read s.pc.toNat = some op → op ∈ f2Opcodes →
    s.pc.toNat + 1 = s.program.length →
    ∃ t, step s = .next t ∧ t = { s with pc := s.pc + 1#16, status := .outOfBounds (s.pc + 1#16) } ∧
      t.pc.toNat = s.program.length)

/-- R83: at most one error a step, in the order opcode fetch, decode, operand fetch; the handler raises nothing. So an
unknown last byte is reported as UnknownOpcode. The order is the spec's own inference from R50 to R52. -/
def Obligations.ErrorsFollowTheCheckOrder : Prop :=
  ∀ s : State, s.Fetching → ∃ t, step s = .next t ∧
    (s.program.length ≤ s.pc.toNat → t.status = .outOfBounds s.pc) ∧
    ∀ op, s.program.read s.pc.toNat = some op →
      (op ∉ f1Opcodes ++ f2Opcodes → t.status = .unknownOpcode op s.pc) ∧
      (op ∈ f2Opcodes → s.pc.toNat + 1 = s.program.length → t.status = .outOfBounds (s.pc + 1#16)) ∧
      (op ∈ f1Opcodes ∨ (op ∈ f2Opcodes ∧ s.pc.toNat + 1 < s.program.length) →
        t.status = if op = 0x00#8 then .halted else .running)

/-- The step runs the decoded instruction: where the bytes at `PC` decode to `i`, the step is the handler of `i` on the
state with `PC` moved past all of it, without wrapping (R50, R52, R53). -/
def Obligations.StepRunsTheDecodedInstruction : Prop :=
  ∀ (s : State) (i : Instr) (rest : List Byte), s.Fetching →
    decode (s.program.bytesAt s.pc.toNat 2) = .ok (i, rest) →
    i.wellFormed = true ∧ step s = exec i { s with pc := s.pc + BitVec.ofNat 16 i.length } ∧
      (s.pc + BitVec.ofNat 16 i.length).toNat = s.pc.toNat + i.length

/-- An opcode-table word that decodes runs as the next step of `withFetchWord`, from any state whose run is not on: the
host's start of a program (logs 13 and 20). On a state whose run has not ended the host has no such move (R94, decision
D14, log 16), and nothing is placed: `PC`, the program and every other field stay. -/
def Obligations.PlacedWordRuns : Prop :=
  (∀ (s : State) (nbits w : Nat) (i : Instr), s.status ≠ .running → decodeTableWord nbits w = some i →
    step (s.withFetchWord nbits w) = exec i { s.withFetchWord nbits w with pc := BitVec.ofNat 16 i.length }) ∧
  ∀ (s : State) (nbits w : Nat), s.status = .running → s.withFetchWord nbits w = s

/-- R82: a dispatched instruction raises nothing: the step of every decoded instruction completes, with the run on or,
for HALT, ended normally. Every handler completes on every state; for BIT and BPL, which are not dispatched, that comes from
R58, R64 and R76, and for a taken branch past 0xFFFF from the model's choices: `pc_overflow` = fault is an end of the run
(D18, log 11), and an end of the run is a next state (log 4). -/
def Obligations.DecodedInstructionsAlwaysSucceed : Prop :=
  (∀ (s : State) (i : Instr) (rest : List Byte), s.Fetching →
    decode (s.program.bytesAt s.pc.toNat 2) = .ok (i, rest) →
    ∃ t, step s = .next t ∧ t.status = if i = .halt then .halted else .running) ∧
  ∀ (i : Instr) (s : State), ∃ t, exec i s = .next t

/-- A run that is not on takes no step to another state (R55, R90); a core without a run or after HALT holds its state,
and after an error the step answers that error. That a held state is a next state and an ended error a fault is the
model's choice (logs 4 and 5). -/
def Obligations.EndedRunHoldsItsState : Prop :=
  (∀ s : State, s.status = .noRun ∨ s.status = .halted → step s = .next s) ∧
  (∀ (s : State) (b : Byte) (off : Offset), s.status = .unknownOpcode b off → step s = .fault (.unknownOpcode b off)) ∧
  (∀ (s : State) (off : Offset), s.status = .outOfBounds off → step s = .fault (.outOfBounds off)) ∧
  ∀ (k : Nat) (s t : State), s.status ≠ .running → steps k s = .next t → t = s

/-! ### Instructions -/

/-- R54: HALT ends the run with the state as it is; in a step `PC` has moved past it. A 0x00 byte reached as an opcode
always halts, and as an operand it is data. -/
def Obligations.HaltEndsTheRun : Prop :=
  (∀ s : State, exec .halt s = .next { s with status := .halted }) ∧
  (∀ s : State, s.Fetching → s.program.read s.pc.toNat = some 0x00#8 →
    ∃ t, step s = .next t ∧ t = { s with pc := s.pc + 1#16, status := .halted } ∧ t.pc.toNat = s.pc.toNat + 1) ∧
  ∀ rest : List Byte, decode (0x00#8 :: rest) = .ok (.halt, rest) ∧
    decode (0xA9#8 :: 0x00#8 :: rest) = .ok (.lda 0x00#8, rest)

/-- R60: `setZN(v)` writes Zero as `v == 0` and Negative as bit 7 of `v`, and nothing else; LDA, AND, TAX and ASL
complete with it applied to their result. That ASL's result is 8 bits wide, so that Zero is set for `A = 0x80`, is the spec's
own decision D3 (log 8). -/
def Obligations.FlagUnitWritesZeroAndNegative : Prop :=
  (∀ (s : State) (v : Byte), (s.setZN v).p.getLsbD 1 = decide (v = 0x00#8) ∧ (s.setZN v).p.getLsbD 7 = v.getLsbD 7 ∧
    FlagsKeptBut [1, 7] s (s.setZN v) ∧ (s.setZN v).a = s.a ∧ (s.setZN v).x = s.x ∧ ControlKept s (s.setZN v)) ∧
  (∀ (s : State) (v : Byte), exec (.lda v) s = .next (({ s with a := v } : State).setZN v)) ∧
  (∀ (s : State) (v : Byte), exec (.and v) s = .next (({ s with a := s.a &&& v } : State).setZN (s.a &&& v))) ∧
  (∀ s : State, exec .tax s = .next (({ s with x := s.a } : State).setZN s.a)) ∧
  ∀ s : State, ∃ t, exec .asl s = .next t ∧ t.p.getLsbD 1 = decide (t.a = 0x00#8) ∧ t.p.getLsbD 7 = t.a.getLsbD 7

/-- R61, R62: ASL doubles `A` mod 256; Carry is the low bit of the result, so always 0; Zero and Negative come from the
result; Overflow, the unused bits and every other register stay. The 8-bit result is the spec's own decision D3 (log 8), and
that Carry is always 0 its own inference (R62). -/
def Obligations.AslDoublesAndClearsCarry : Prop :=
  (∀ rest : List Byte, decode (0x0A#8 :: rest) = .ok (.asl, rest)) ∧
  ∀ s : State, ∃ t, exec .asl s = .next t ∧ t.a.toNat = 2 * s.a.toNat % 256 ∧
    t.p.getLsbD 0 = t.a.getLsbD 0 ∧ t.p.getLsbD 0 = false ∧ t.p.getLsbD 1 = decide (t.a = 0x00#8) ∧
    t.p.getLsbD 7 = s.a.getLsbD 6 ∧ FlagsKeptBut [0, 1, 7] s t ∧ t.x = s.x ∧ ControlKept s t

/-- R63: AND with the immediate; Zero and Negative from the result, Carry, Overflow and the unused bits stay; a second AND
with the same operand changes nothing more. As the last byte of the program it raises OutOfBounds, and `PC` at the offset
of the failed fetch is the spec's own decision D2 (log 7). -/
def Obligations.AndMasksTheAccumulator : Prop :=
  (∀ (o : Byte) (rest : List Byte), decode (0x29#8 :: o :: rest) = .ok (.and o, rest)) ∧
  (∀ s : State, s.Fetching → s.program.read s.pc.toNat = some 0x29#8 → s.pc.toNat + 1 = s.program.length →
    step s = .next { s with pc := s.pc + 1#16, status := .outOfBounds (s.pc + 1#16) }) ∧
  ∀ (o : Byte) (s : State), ∃ t, exec (.and o) s = .next t ∧ (∀ j, t.a.getLsbD j = (s.a.getLsbD j && o.getLsbD j)) ∧
    t.p.getLsbD 1 = decide (t.a = 0x00#8) ∧ t.p.getLsbD 7 = (s.a.getLsbD 7 && o.getLsbD 7) ∧
    FlagsKeptBut [1, 7] s t ∧ t.x = s.x ∧ ControlKept s t ∧ exec (.and o) t = .next t

/-- R64: BIT sets Zero from `A & opnd`, Overflow and Negative from bits 6 and 7 of the operand itself, leaves `A`, Carry
and the unused bits, and no byte sequence decodes to it. That Zero is `(A & opnd) == 0` is the spec's own reading C12
(log 12). -/
def Obligations.BitTestsTheAccumulator : Prop :=
  (∀ (bytes rest : List Byte) (o : Byte), decode bytes ≠ .ok (.bit o, rest)) ∧
  ∀ (o : Byte) (s : State), ∃ t, exec (.bit o) s = .next t ∧ t.a = s.a ∧
    (t.p.getLsbD 1 = true ↔ ∀ j, (s.a.getLsbD j && o.getLsbD j) = false) ∧ t.p.getLsbD 6 = o.getLsbD 6 ∧
    t.p.getLsbD 7 = o.getLsbD 7 ∧ FlagsKeptBut [1, 6, 7] s t ∧ t.x = s.x ∧ ControlKept s t

/-- R66: LDA loads the immediate whatever `A` was; Zero exactly for 0, Negative exactly for 0x80 and up; Carry, Overflow and
the unused bits stay. As the last byte of the program it raises OutOfBounds, and `PC` at the offset of the failed fetch is
the spec's own decision D2 (log 7). -/
def Obligations.LdaLoadsTheImmediate : Prop :=
  (∀ (v : Byte) (rest : List Byte), decode (0xA9#8 :: v :: rest) = .ok (.lda v, rest)) ∧
  (∀ s : State, s.Fetching → s.program.read s.pc.toNat = some 0xA9#8 → s.pc.toNat + 1 = s.program.length →
    step s = .next { s with pc := s.pc + 1#16, status := .outOfBounds (s.pc + 1#16) }) ∧
  ∀ (v : Byte) (s : State), ∃ t, exec (.lda v) s = .next t ∧ t.a = v ∧ (t.p.getLsbD 1 = true ↔ v = 0x00#8) ∧
    (t.p.getLsbD 7 = true ↔ 0x80 ≤ v.toNat) ∧ FlagsKeptBut [1, 7] s t ∧ t.x = s.x ∧ ControlKept s t

/-- R67: TAX copies `A` to `X`, with Zero and Negative from the new `X`; after LDA the flags are those LDA produced. -/
def Obligations.TaxCopiesTheAccumulator : Prop :=
  (∀ rest : List Byte, decode (0xAA#8 :: rest) = .ok (.tax, rest)) ∧
  (∀ s : State, ∃ t, exec .tax s = .next t ∧ t.x = s.a ∧ t.a = s.a ∧ t.p.getLsbD 1 = decide (t.x = 0x00#8) ∧
    t.p.getLsbD 7 = t.x.getLsbD 7 ∧ FlagsKeptBut [1, 7] s t ∧ ControlKept s t) ∧
  ∀ (v : Byte) (s : State), ∃ t u, exec (.lda v) s = .next t ∧ exec .tax t = .next u ∧ u.x = v ∧ u.a = v ∧ u.p = t.p

/-- R68: CLC clears Carry and touches no other flag and no register; with Carry already 0 it changes nothing. -/
def Obligations.ClcClearsCarryOnly : Prop :=
  (∀ rest : List Byte, decode (0x18#8 :: rest) = .ok (.clc, rest)) ∧
  ∀ s : State, ∃ t, exec .clc s = .next t ∧ t.p.getLsbD 0 = false ∧ FlagsKeptBut [0] s t ∧ t.a = s.a ∧ t.x = s.x ∧
    ControlKept s t ∧ (s.p.getLsbD 0 = false → t = s)

/-- R69 to R76: each branch tests its flag; taken, it adds the unsigned offset to the `PC` its handler sees; not taken,
it changes nothing; no branch writes a flag or a data register. For every sum that fits the counter; the sum past 0xFFFF
is `BranchPastTheCounter`. BPL has no opcode. -/
def Obligations.BranchesFollowTheirFlag : Prop :=
  (∀ (o : Byte) (s : State),
    BranchesOn (!s.p.getLsbD 0) o (.bcc o) s ∧ BranchesOn (s.p.getLsbD 0) o (.bcs o) s ∧
    BranchesOn (s.p.getLsbD 1) o (.beq o) s ∧ BranchesOn (!s.p.getLsbD 1) o (.bne o) s ∧
    BranchesOn (s.p.getLsbD 7) o (.bmi o) s ∧ BranchesOn (!s.p.getLsbD 6) o (.bvc o) s ∧
    BranchesOn (!s.p.getLsbD 7) o (.bpl o) s) ∧
  (∀ (o : Byte) (rest : List Byte),
    decode (0x90#8 :: o :: rest) = .ok (.bcc o, rest) ∧ decode (0xB0#8 :: o :: rest) = .ok (.bcs o, rest) ∧
    decode (0xF0#8 :: o :: rest) = .ok (.beq o, rest) ∧ decode (0xD0#8 :: o :: rest) = .ok (.bne o, rest) ∧
    decode (0x30#8 :: o :: rest) = .ok (.bmi o, rest) ∧ decode (0x50#8 :: o :: rest) = .ok (.bvc o, rest)) ∧
  ∀ (bytes rest : List Byte) (o : Byte), decode bytes ≠ .ok (.bpl o, rest)

/-- D18, open in the spec: a taken branch whose sum passes 0xFFFF, in a state given to the handler. For both values of
`pc_overflow`, the counter is left at the sum mod 2^16 (for `fault` by R81, the model's reading, log 11), the run is on as
before or has ended with OutOfBounds at that offset, a next state (log 4), and nothing else changes. -/
def Obligations.BranchPastTheCounter : Prop :=
  ∀ (i : Instr) (s : State) (o : Byte), branchCase i s = some (true, o) → 65536 ≤ s.pc.toNat + o.toNat →
    ∃ t, exec i s = .next t ∧ t.pc.toNat + 65536 = s.pc.toNat + o.toNat ∧
      (t.status = s.status ∨ t.status = .outOfBounds t.pc) ∧ DataKept s t

/-- R77: in a run a taken branch completes at `off + 2 + opnd` wherever that is, on a byte meant as an operand too; when the
target is past the end, the next step's opcode fetch raises OutOfBounds there, and nothing else changes. The spec infers R77
itself, from R69 and R50, and `PC` at the target after the failed fetch is its own decision D2 (log 7). -/
def Obligations.BranchTargetPastTheEnd : Prop :=
  ∀ (s : State) (i : Instr) (rest : List Byte) (o : Byte), s.Fetching →
    decode (s.program.bytesAt s.pc.toNat 2) = .ok (i, rest) → branchCase i s = some (true, o) →
    ∃ t, step s = .next t ∧ t.status = .running ∧ t.pc.toNat = s.pc.toNat + 2 + o.toNat ∧ DataKept s t ∧
      (s.program.length ≤ t.pc.toNat → step t = .next { t with status := .outOfBounds t.pc })

/-! ### Who writes and who reads -/

/-- R17: no handler, no step, no run and no run start sets or clears a bit of `P[5:2]`. -/
def Obligations.UnusedBitsAreNeverTouched : Prop :=
  ∀ j, 2 ≤ j → j ≤ 5 →
    (∀ (i : Instr) (s t : State), exec i s = .next t → t.p.getLsbD j = s.p.getLsbD j) ∧
    (∀ (k : Nat) (s t : State), steps k s = .next t → t.p.getLsbD j = s.p.getLsbD j) ∧
    ∀ (program : List Byte) (s t : State), start program s = .next t → t.p.getLsbD j = s.p.getLsbD j

/-- R18: ASL and CLC write Carry, always with 0, and no other instruction writes it; so nothing sets it, and a run that
starts with Carry clear, as reset leaves it, keeps it clear. BCC and BCS read it: they branch on it, and no other
handler's outcome depends on it. That nothing can set it is the spec's own inference in R18. -/
def Obligations.CarryIsNeverSet : Prop :=
  (∀ s t : State, exec .asl s = .next t ∨ exec .clc s = .next t → t.p.getLsbD 0 = false) ∧
  (∀ (i : Instr) (s t : State), i.writesCarry = false → exec i s = .next t → t.p.getLsbD 0 = s.p.getLsbD 0) ∧
  (∀ (k : Nat) (s t : State), s.p.getLsbD 0 = false → steps k s = .next t → t.p.getLsbD 0 = false) ∧
  State.reset.p.getLsbD 0 = false ∧
  (∀ (o : Byte) (s : State), BranchesOn (!s.p.getLsbD 0) o (.bcc o) s ∧ BranchesOn (s.p.getLsbD 0) o (.bcs o) s) ∧
  ∀ (i : Instr) (s t u : State) (c : Bool), (∀ o, i ≠ .bcc o) → (∀ o, i ≠ .bcs o) →
    exec i s = .next t → exec i (s.setCarry c) = .next u →
    u.a = t.a ∧ u.x = t.x ∧ u.pc = t.pc ∧ u.status = t.status ∧ FlagsKeptBut [0] t u

/-- R20: only BIT writes Overflow, with bit 6 of its operand; no dispatched instruction does, so a run keeps it, whatever it
was at the start; BVC branches on it; reset leaves it 0. That a run keeps it is the spec's own inference in R20. -/
def Obligations.OverflowIsKeptByEveryRun : Prop :=
  (∀ (o : Byte) (s t : State), exec (.bit o) s = .next t → t.p.getLsbD 6 = o.getLsbD 6) ∧
  (∀ (i : Instr) (s t : State), (∀ o, i ≠ .bit o) → exec i s = .next t → t.p.getLsbD 6 = s.p.getLsbD 6) ∧
  (∀ (k : Nat) (s t : State), steps k s = .next t → t.p.getLsbD 6 = s.p.getLsbD 6) ∧
  (∀ (o : Byte) (s : State), BranchesOn (!s.p.getLsbD 6) o (.bvc o) s) ∧
  State.reset.p.getLsbD 6 = false

/-- Zero and Negative change only under LDA, AND, TAX, ASL and BIT (R19, R21). -/
def Obligations.ZeroAndNegativeHaveFiveWriters : Prop :=
  ∀ (i : Instr) (s t : State), i.writesZN = false → exec i s = .next t →
    t.p.getLsbD 1 = s.p.getLsbD 1 ∧ t.p.getLsbD 7 = s.p.getLsbD 7

/-- R67's closing remark and R22: no dispatched instruction leaves Zero and Negative stale with respect to `A`, and no run
does. For ASL of 0x80 this holds by the spec's own decision D3, an 8-bit result (log 8). -/
def Obligations.ZeroAndNegativeFollowTheAccumulator : Prop :=
  (∀ (i : Instr) (s t : State), i.wellFormed = true → ZnFollowA s → exec i s = .next t → ZnFollowA t) ∧
  ∀ (k : Nat) (s t : State), ZnFollowA s → steps k s = .next t → ZnFollowA t

/-- R10: LDA, AND and ASL are the only writers of `A`, and AND, ASL, TAX and BIT its only readers: another value of `A`
gives every other handler the same outcome, with that value still in `A` unless the handler writes it. -/
def Obligations.AccumulatorWritersAndReaders : Prop :=
  (∀ (i : Instr) (s t : State), i.writesA = false → exec i s = .next t → t.a = s.a) ∧
  (∀ (i : Instr) (s : State) (v : Byte), i.readsA = false → i.writesA = false →
    exec i { s with a := v } = mapNext (fun t => { t with a := v }) (exec i s)) ∧
  ∀ (s : State) (o v : Byte), exec (.lda o) { s with a := v } = exec (.lda o) s

/-- R11, R12, R13: only TAX writes `X`, and no instruction reads it; no instruction reads or writes `Y` or `SP`, so they keep
their values for the whole run. Other values in them give every handler the same outcome. -/
def Obligations.IndexAndReservedRegistersAreInert : Prop :=
  (∀ (i : Instr) (s t : State), exec i s = .next t → (i ≠ .tax → t.x = s.x) ∧ t.y = s.y ∧ t.sp = s.sp) ∧
  (∀ (i : Instr) (s : State) (x y sp : Byte), i ≠ .tax →
    exec i { s with x := x, y := y, sp := sp } = mapNext (fun t => { t with x := x, y := y, sp := sp }) (exec i s)) ∧
  (∀ (s : State) (x y sp : Byte),
    exec .tax { s with x := x, y := y, sp := sp } = mapNext (fun t => { t with y := y, sp := sp }) (exec .tax s)) ∧
  ∀ (k : Nat) (s t : State), steps k s = .next t → t.y = s.y ∧ t.sp = s.sp

/-- R35, R37: no handler writes the program, and the byte at each offset is the host's after every number of steps of a
run. The spec's own decision D6 (sequential consistency) says so. -/
def Obligations.ProgramIsImmutable : Prop :=
  (∀ (i : Instr) (s t : State), exec i s = .next t → t.program = s.program) ∧
  ∀ (program : List Byte) (s t u : State) (k off : Nat), start program s = .next t → steps k t = .next u →
    u.program.read off = program[off]?

/-! ### Whole runs -/

/-- R15: within a run `PC` never decreases and never wraps, and every value it takes is at most `L + 0xFF`; a run starts at
0. The bound is the spec's own inference in R15, from R29 (decision D1, log 6), R50, R52 and R69; that a failed fetch leaves
`PC` where it is is its decision D2 (log 7). -/
def Obligations.PcNeverDecreasesNorWraps : Prop :=
  (∀ s t : State, step s = .next t → s.pc.toNat ≤ t.pc.toNat) ∧
  (∀ (k : Nat) (s t : State), steps k s = .next t → s.pc.toNat ≤ t.pc.toNat ∧
    (s.pc.toNat ≤ s.program.length + 0xFF → t.pc.toNat ≤ s.program.length + 0xFF)) ∧
  (∀ s : State, s.Fetching → s.program.length + 0xFF ≤ 0xFFFF) ∧
  ∀ (program : List Byte) (s t : State), start program s = .next t → t.pc = 0x0000#16

/-- The invariant holds after every step from a state that has it: the buffer stays canonical and admitted, `PC` stays at
most `L + 0xFF`, and an ended run's status agrees with `PC` and the program (R15, R54, R80, R81). Of these, the bound on
`PC` is the spec's own inference in R15 from its decision D1 (log 6), `PC` one past an unknown opcode its inference in R51,
`PC` at the offset after OutOfBounds its decision D2 (log 7), and the canonical form the model's choice (log 2). -/
def Obligations.EveryStepKeepsTheInvariant : Prop :=
  ∀ s t : State, s.Inv → step s = .next t → t.Inv

/-- R59: each step ends the run or leaves `PC` at a strictly greater opcode offset, so every run of an admitted program
ends after at most `L + 1` steps. The spec infers R59 itself. -/
def Obligations.EveryRunEndsWithinLPlusOneSteps : Prop :=
  (∀ s t : State, s.Fetching → step s = .next t → t.status = .running → s.pc.toNat < t.pc.toNat) ∧
  ∀ s : State, s.Fetching → ∃ k t, k ≤ s.program.length + 1 ∧ steps k s = .next t ∧ t.status.ended = true

/-- `interpret` of an admitted program answers exactly one of the three outcomes, with what each says of the program and
of `PC` (R48, R55, R80, R81); and it keeps `Y`, `SP` and the program. That the outcome is the state's run status is the
model's form (log 3). `PC` at the offset after OutOfBounds is the spec's own decision D2 (log 7), `PC` one past an unknown
opcode its inference in R51, and `Y` and `SP` kept through the start its decision D4 (log 9). -/
def Obligations.InterpretAnswersOneOfThreeOutcomes : Prop :=
  ∀ (program : List Byte) (s : State), s.status ≠ .running → program.length ≤ 0xFF00 →
    ∃ t, interpret program s = .next t ∧ t.y = s.y ∧ t.sp = s.sp ∧ (∀ off, t.program.read off = program[off]?) ∧
      ((t.status = .halted ∧ 0 < t.pc.toNat ∧ program[t.pc.toNat - 1]? = some 0x00#8) ∨
       (∃ b off, t.status = .unknownOpcode b off ∧ program[off.toNat]? = some b ∧ b ∉ f1Opcodes ++ f2Opcodes ∧
         t.pc.toNat = off.toNat + 1) ∨
       (∃ off, t.status = .outOfBounds off ∧ program.length ≤ off.toNat ∧ t.pc = off))
end

