-- ==== Sys2Proof/Laws/Decode.lean ====
section
/-! SUPPORT. What the dispatch table answers for each byte, said once. -/

namespace Sys2Proof

/-- A byte outside the twelve of R56 has no table entry (R44). -/
theorem lookup_unknown {b : Byte} (h : b ∉ f1Opcodes ++ f2Opcodes) : lookup b = none := by
  simp only [f1Opcodes, f2Opcodes, List.cons_append, List.nil_append, List.mem_cons, List.not_mem_nil, or_false,
    not_or] at h
  simp [lookup, lookupIn, dispatchTable, h]

/-- An F1 opcode has an entry of format F1 whose instruction is well-formed and one byte long; it is HALT for 0x00 only. -/
theorem lookup_f1 {b : Byte} (h : b ∈ f1Opcodes) :
    ∃ i, lookup b = some (.f1 i) ∧ encode i = [b] ∧ i.wellFormed = true ∧ i.length = 1 ∧ (i = .halt ↔ b = 0x00#8) := by
  simp only [f1Opcodes, List.mem_cons, List.not_mem_nil, or_false] at h
  rcases h with rfl | rfl | rfl | rfl <;> exact ⟨_, rfl, rfl, rfl, rfl, by decide⟩

/-- An F2 opcode has an entry of format F2, whose instructions are well-formed and two bytes long, none of them HALT. -/
theorem lookup_f2 {b : Byte} (h : b ∈ f2Opcodes) :
    ∃ build, lookup b = some (.f2 build) ∧
      ∀ o, encode (build o) = [b, o] ∧ (build o).wellFormed = true ∧ (build o).length = 2 ∧ build o ≠ .halt := by
  simp only [f2Opcodes, List.mem_cons, List.not_mem_nil, or_false] at h
  rcases h with rfl | rfl | rfl | rfl | rfl | rfl | rfl | rfl <;>
    exact ⟨_, rfl, fun o => ⟨rfl, rfl, rfl, by simp⟩⟩

/-- Every byte is unknown, an F1 opcode or an F2 opcode, and no byte is two of them. -/
theorem opcode_cases (b : Byte) :
    b ∉ f1Opcodes ++ f2Opcodes ∨ (b ∈ f1Opcodes ∧ b ∉ f2Opcodes) ∨ (b ∈ f2Opcodes ∧ b ∉ f1Opcodes) := by
  have disjoint : ∀ c ∈ f1Opcodes, c ∉ f2Opcodes := by decide
  by_cases h1 : b ∈ f1Opcodes
  · exact .inr (.inl ⟨h1, disjoint b h1⟩)
  · by_cases h2 : b ∈ f2Opcodes
    · exact .inr (.inr ⟨h2, h1⟩)
    · exact .inl (by simp [h1, h2])

/-- What `lookup` found tells which set the byte is in. -/
theorem mem_of_lookup_f1 {b : Byte} {i : Instr} (h : lookup b = some (.f1 i)) : b ∈ f1Opcodes := by
  rcases opcode_cases b with hu | ⟨h1, -⟩ | ⟨h2, -⟩
  · simp [lookup_unknown hu] at h
  · exact h1
  · obtain ⟨build, hb, -⟩ := lookup_f2 h2
    simp [hb] at h

/-- What `lookup` found tells which set the byte is in. -/
theorem mem_of_lookup_f2 {b : Byte} {build : Byte → Instr} (h : lookup b = some (.f2 build)) : b ∈ f2Opcodes := by
  rcases opcode_cases b with hu | ⟨h1, -⟩ | ⟨h2, -⟩
  · simp [lookup_unknown hu] at h
  · obtain ⟨i, hi, -⟩ := lookup_f1 h1
    simp [hi] at h
  · exact h2

/-- What `lookup` found tells which set the byte is in. -/
theorem not_mem_of_lookup_none {b : Byte} (h : lookup b = none) : b ∉ f1Opcodes ++ f2Opcodes := by
  rcases opcode_cases b with hu | ⟨h1, -⟩ | ⟨h2, -⟩
  · exact hu
  · obtain ⟨i, hi, -⟩ := lookup_f1 h1
    simp [hi] at h
  · obtain ⟨build, hb, -⟩ := lookup_f2 h2
    simp [hb] at h

end Sys2Proof
end

