-- ==== Sys2Proof/Laws/State.lean ====
section
/-! SUPPORT. One lemma per field per register update, so that no later proof unfolds a record update. -/

namespace Sys2Proof.Machine

@[simp] theorem State.setA_a (s : State) (v : Byte) : (s.setA v).a = v := rfl
@[simp] theorem State.setA_x (s : State) (v : Byte) : (s.setA v).x = s.x := rfl
@[simp] theorem State.setA_y (s : State) (v : Byte) : (s.setA v).y = s.y := rfl
@[simp] theorem State.setA_sp (s : State) (v : Byte) : (s.setA v).sp = s.sp := rfl
@[simp] theorem State.setA_pc (s : State) (v : Byte) : (s.setA v).pc = s.pc := rfl
@[simp] theorem State.setA_p (s : State) (v : Byte) : (s.setA v).p = s.p := rfl
@[simp] theorem State.setA_program (s : State) (v : Byte) : (s.setA v).program = s.program := rfl
@[simp] theorem State.setA_status (s : State) (v : Byte) : (s.setA v).status = s.status := rfl

@[simp] theorem State.setX_a (s : State) (v : Byte) : (s.setX v).a = s.a := rfl
@[simp] theorem State.setX_x (s : State) (v : Byte) : (s.setX v).x = v := rfl
@[simp] theorem State.setX_y (s : State) (v : Byte) : (s.setX v).y = s.y := rfl
@[simp] theorem State.setX_sp (s : State) (v : Byte) : (s.setX v).sp = s.sp := rfl
@[simp] theorem State.setX_pc (s : State) (v : Byte) : (s.setX v).pc = s.pc := rfl
@[simp] theorem State.setX_p (s : State) (v : Byte) : (s.setX v).p = s.p := rfl
@[simp] theorem State.setX_program (s : State) (v : Byte) : (s.setX v).program = s.program := rfl
@[simp] theorem State.setX_status (s : State) (v : Byte) : (s.setX v).status = s.status := rfl

@[simp] theorem State.setPc_a (s : State) (v : Offset) : (s.setPc v).a = s.a := rfl
@[simp] theorem State.setPc_x (s : State) (v : Offset) : (s.setPc v).x = s.x := rfl
@[simp] theorem State.setPc_y (s : State) (v : Offset) : (s.setPc v).y = s.y := rfl
@[simp] theorem State.setPc_sp (s : State) (v : Offset) : (s.setPc v).sp = s.sp := rfl
@[simp] theorem State.setPc_pc (s : State) (v : Offset) : (s.setPc v).pc = v := rfl
@[simp] theorem State.setPc_p (s : State) (v : Offset) : (s.setPc v).p = s.p := rfl
@[simp] theorem State.setPc_program (s : State) (v : Offset) : (s.setPc v).program = s.program := rfl
@[simp] theorem State.setPc_status (s : State) (v : Offset) : (s.setPc v).status = s.status := rfl

@[simp] theorem State.setP_a (s : State) (v : Byte) : (s.setP v).a = s.a := rfl
@[simp] theorem State.setP_x (s : State) (v : Byte) : (s.setP v).x = s.x := rfl
@[simp] theorem State.setP_y (s : State) (v : Byte) : (s.setP v).y = s.y := rfl
@[simp] theorem State.setP_sp (s : State) (v : Byte) : (s.setP v).sp = s.sp := rfl
@[simp] theorem State.setP_pc (s : State) (v : Byte) : (s.setP v).pc = s.pc := rfl
@[simp] theorem State.setP_p (s : State) (v : Byte) : (s.setP v).p = v := rfl
@[simp] theorem State.setP_program (s : State) (v : Byte) : (s.setP v).program = s.program := rfl
@[simp] theorem State.setP_status (s : State) (v : Byte) : (s.setP v).status = s.status := rfl

@[simp] theorem State.setStatus_a (s : State) (v : RunStatus) : (s.setStatus v).a = s.a := rfl
@[simp] theorem State.setStatus_x (s : State) (v : RunStatus) : (s.setStatus v).x = s.x := rfl
@[simp] theorem State.setStatus_y (s : State) (v : RunStatus) : (s.setStatus v).y = s.y := rfl
@[simp] theorem State.setStatus_sp (s : State) (v : RunStatus) : (s.setStatus v).sp = s.sp := rfl
@[simp] theorem State.setStatus_pc (s : State) (v : RunStatus) : (s.setStatus v).pc = s.pc := rfl
@[simp] theorem State.setStatus_p (s : State) (v : RunStatus) : (s.setStatus v).p = s.p := rfl
@[simp] theorem State.setStatus_program (s : State) (v : RunStatus) : (s.setStatus v).program = s.program := rfl
@[simp] theorem State.setStatus_status (s : State) (v : RunStatus) : (s.setStatus v).status = v := rfl

@[simp] theorem State.setProgram_a (s : State) (v : Memory) : (s.setProgram v).a = s.a := rfl
@[simp] theorem State.setProgram_x (s : State) (v : Memory) : (s.setProgram v).x = s.x := rfl
@[simp] theorem State.setProgram_y (s : State) (v : Memory) : (s.setProgram v).y = s.y := rfl
@[simp] theorem State.setProgram_sp (s : State) (v : Memory) : (s.setProgram v).sp = s.sp := rfl
@[simp] theorem State.setProgram_pc (s : State) (v : Memory) : (s.setProgram v).pc = s.pc := rfl
@[simp] theorem State.setProgram_p (s : State) (v : Memory) : (s.setProgram v).p = s.p := rfl
@[simp] theorem State.setProgram_program (s : State) (v : Memory) : (s.setProgram v).program = v := rfl
@[simp] theorem State.setProgram_status (s : State) (v : Memory) : (s.setProgram v).status = s.status := rfl

end Sys2Proof.Machine
end

