-- ==== Sys2Proof/Laws/Flags.lean ====
section
/-! SUPPORT. What writing one bit and the flag unit do to each bit of `P`. -/

namespace Sys2Proof.Machine

/-- A bit write sets the bit it names and keeps every other bit (R7). -/
theorem getLsbD_writeBit (v : Byte) (i j : Nat) (b : Bool) (h : i < 8) :
    (writeBit v i b).getLsbD j = if j = i then b else v.getLsbD j := by
  by_cases hj : j < 8
  · unfold writeBit
    cases b <;> (interval_cases i <;> interval_cases j <;> simp)
  · have hne : j ≠ i := by omega
    rw [if_neg hne, BitVec.getLsbD_of_ge _ _ (by omega), BitVec.getLsbD_of_ge _ _ (by omega)]

/-- The bits of `P` after `setZN` (R60). -/
theorem State.setZN_getLsbD (s : State) (v : Byte) (j : Nat) :
    (s.setZN v).p.getLsbD j =
      if j = 7 then v.getLsbD 7 else if j = 1 then decide (v = 0x00#8) else s.p.getLsbD j := by
  simp only [State.setZN, State.setNegative, State.setZero, State.setP_p, isZero, isNegative, zeroBit, negativeBit,
    getLsbD_writeBit _ 7 j _ (by decide), getLsbD_writeBit _ 1 j _ (by decide)]

@[simp] theorem State.setZN_a (s : State) (v : Byte) : (s.setZN v).a = s.a := rfl
@[simp] theorem State.setZN_x (s : State) (v : Byte) : (s.setZN v).x = s.x := rfl
@[simp] theorem State.setZN_y (s : State) (v : Byte) : (s.setZN v).y = s.y := rfl
@[simp] theorem State.setZN_sp (s : State) (v : Byte) : (s.setZN v).sp = s.sp := rfl
@[simp] theorem State.setZN_pc (s : State) (v : Byte) : (s.setZN v).pc = s.pc := rfl
@[simp] theorem State.setZN_program (s : State) (v : Byte) : (s.setZN v).program = s.program := rfl
@[simp] theorem State.setZN_status (s : State) (v : Byte) : (s.setZN v).status = s.status := rfl

end Sys2Proof.Machine
end

