-- ==== Sys2Proof/Laws/Memory.lean ====
section
/-! SUPPORT. What the program buffer's operations do: reading, loading, and the canonical form. -/

namespace Sys2Proof.Machine

/-- A read answers a byte exactly inside the buffer (R28). -/
theorem Memory.read_isSome_iff (m : Memory) (off : Nat) : (m.read off).isSome = true ↔ off < m.length := by
  unfold Memory.read
  split <;> simp_all

/-- A read past the end answers nothing (R28). -/
theorem Memory.read_eq_none_iff (m : Memory) (off : Nat) : m.read off = none ↔ m.length ≤ off := by
  unfold Memory.read
  split <;> simp_all

/-- An offset that reads as a byte is inside the buffer. -/
theorem Memory.lt_of_read {m : Memory} {off : Nat} {b : Byte} (h : m.read off = some b) : off < m.length :=
  (m.read_isSome_iff off).1 (by simp [h])

/-- A cell list that starts at `low` gives the unlisted byte below `low`. -/
theorem Memory.lookupCell_cellsFrom_lt (bytes : List Byte) (low off : Nat) (h : off < low) :
    Memory.lookupCell off (Memory.cellsFrom low bytes) = Memory.unlisted := by
  induction bytes generalizing low with
  | nil => rfl
  | cons b bytes ih =>
    rw [Memory.cellsFrom]
    split
    · exact ih (low + 1) (by omega)
    · rw [Memory.lookupCell, if_neg (by omega)]
      exact ih (low + 1) (by omega)

/-- The cells of a byte sequence give back its bytes. -/
theorem Memory.lookupCell_cellsFrom (bytes : List Byte) (low k : Nat) :
    Memory.lookupCell (low + k) (Memory.cellsFrom low bytes) = bytes.getD k Memory.unlisted := by
  induction bytes generalizing low k with
  | nil => simp [Memory.cellsFrom, Memory.lookupCell]
  | cons b bytes ih =>
    rw [Memory.cellsFrom]
    cases k with
    | zero =>
      split
      · rename_i hb
        simp [Memory.lookupCell_cellsFrom_lt bytes (low + 1) low (by omega), hb]
      · simp [Memory.lookupCell]
    | succ k =>
      have hk : low + (k + 1) = (low + 1) + k := by omega
      split
      · rw [hk, ih]
        simp
      · rw [Memory.lookupCell, if_neg (by omega), hk, ih]
        simp

/-- Reading a loaded program gives the host's bytes, and nothing past its end (R28, R35). -/
theorem Memory.read_ofBytes (bytes : List Byte) (off : Nat) : (Memory.ofBytes bytes).read off = bytes[off]? := by
  unfold Memory.read Memory.ofBytes
  by_cases h : off < bytes.length
  · have hl := Memory.lookupCell_cellsFrom bytes 0 off
    rw [Nat.zero_add] at hl
    simp [h, hl]
  · simp [h]

@[simp] theorem Memory.ofBytes_length (bytes : List Byte) : (Memory.ofBytes bytes).length = bytes.length := rfl

/-- The cells of a byte sequence are in the canonical form. -/
theorem Memory.cellsWf_cellsFrom (len : Nat) (bytes : List Byte) (low start : Nat) (hs : low ≤ start)
    (h : start + bytes.length ≤ len) : Memory.cellsWf len low (Memory.cellsFrom start bytes) = true := by
  induction bytes generalizing low start with
  | nil => rfl
  | cons b bytes ih =>
    simp only [List.length_cons] at h
    rw [Memory.cellsFrom]
    split
    · exact ih low (start + 1) (by omega) (by omega)
    · rename_i hb
      simp only [Memory.cellsWf, Bool.and_eq_true, decide_eq_true_eq]
      exact ⟨⟨⟨hs, by omega⟩, hb⟩, ih (start + 1) (start + 1) (by omega) (by omega)⟩

/-- Loading gives the canonical form; no other operation makes or changes a buffer (R7, R30). -/
theorem Memory.wf_ofBytes (bytes : List Byte) : (Memory.ofBytes bytes).wf = true :=
  Memory.cellsWf_cellsFrom _ _ 0 0 (by omega) (by simp [Memory.ofBytes])

/-- The buffer after reset is in the canonical form. -/
theorem Memory.wf_reset : State.reset.program.wf = true := rfl

end Sys2Proof.Machine
end

