-- ==== Sys2Proof/Laws/Ops.lean ====
section
/-! SUPPORT. One lemma per shared operation: what a fetch, an error, a counter addition and a branch do. -/

namespace Sys2Proof.Machine

/-- A fetch that answers a byte read it at `PC` and moved `PC` on by one. -/
theorem fetchByte_ok {s t : State} {b : Byte} (h : s.fetchByte = .ok (b, t)) :
    s.program.read s.pc.toNat = some b ∧ t = { s with pc := s.pc + 1#16 } := by
  unfold State.fetchByte at h
  split at h
  · rename_i b' hb
    cases h
    exact ⟨hb, rfl⟩
  · cases h

/-- A fetch that fails does so at the end of the program, and leaves `PC` at that offset (D2). -/
theorem fetchByte_error {s t : State} (h : s.fetchByte = .error t) :
    s.program.length ≤ s.pc.toNat ∧ t = { s with status := .outOfBounds s.pc } := by
  unfold State.fetchByte at h
  split at h
  · cases h
  · rename_i hb
    cases h
    exact ⟨(Memory.read_eq_none_iff _ _).1 hb, rfl⟩

/-- A fetch inside the program succeeds. -/
theorem fetchByte_of_read {s : State} {b : Byte} (h : s.program.read s.pc.toNat = some b) :
    s.fetchByte = .ok (b, { s with pc := s.pc + 1#16 }) := by
  unfold State.fetchByte
  rw [h]
  rfl

/-- A fetch at or past the end fails. -/
theorem fetchByte_of_end {s : State} (h : s.program.length ≤ s.pc.toNat) :
    s.fetchByte = .error { s with status := .outOfBounds s.pc } := by
  unfold State.fetchByte
  rw [(Memory.read_eq_none_iff _ _).2 h]
  rfl

/-- The counter's next value, where the byte fetched is inside an admitted program: no wrap (R15). -/
theorem toNat_pc_succ {pc : Offset} {len : Nat} (h : pc.toNat < len) (hl : len ≤ 0xFF00) :
    (pc + 1#16).toNat = pc.toNat + 1 := by
  rw [BitVec.toNat_add]
  simp only [BitVec.toNat_ofNat]
  omega

/-- Adding to a counter whose sum fits: the exact sum, and nothing else changes (R69). -/
theorem addToPc_fits {s : State} {d : Offset} (h : s.pc.toNat + d.toNat < 65536) :
    s.addToPc d = { s with pc := s.pc + d } ∧ (s.pc + d).toNat = s.pc.toNat + d.toNat := by
  refine ⟨?_, ?_⟩
  · unfold State.addToPc
    rw [if_pos (show s.pc.toNat + d.toNat < 2 ^ 16 from h)]
    rfl
  · rw [BitVec.toNat_add]
    omega

/-- Adding to a counter, whatever the sum: the registers but `PC` stay, `PC` is the sum mod 2^16, and the status stays or
is OutOfBounds at that offset; the latter only past 0xFFFF (D18). -/
theorem addToPc_cases (s : State) (d : Offset) :
    s.addToPc d = { s with pc := s.pc + d } ∨
      (65536 ≤ s.pc.toNat + d.toNat ∧ s.addToPc d = { s with pc := s.pc + d, status := .outOfBounds (s.pc + d) }) := by
  unfold State.addToPc
  split
  · exact .inl rfl
  · unfold State.overflowPc
    cases Config.pcOverflow with
    | wrap => exact .inl rfl
    | fault => exact .inr ⟨by omega, rfl⟩

/-- The relative offset is the operand, 0 to 255 (R41). -/
@[simp] theorem toNat_relativeOffset (opnd : Byte) : (relativeOffset opnd).toNat = opnd.toNat := by
  have h : opnd.toNat < 256 := opnd.isLt
  simp only [relativeOffset, zext16, BitVec.toNat_setWidth]
  omega

/-- A branch that is not taken changes nothing (R69). -/
theorem branch_not_taken {s : State} {flag e : Bool} (opnd : Byte) (h : flag ≠ e) : s.branch flag e opnd = s := by
  simp [State.branch, h]

/-- A taken branch adds its offset (R69). -/
theorem branch_taken {s : State} {flag e : Bool} (opnd : Byte) (h : flag = e) :
    s.branch flag e opnd = s.addToPc (relativeOffset opnd) := by
  simp [State.branch, h]

/-- Everything a branch can do to the state. -/
theorem branch_cases (s : State) (flag e : Bool) (opnd : Byte) :
    s.branch flag e opnd = s ∨
    s.branch flag e opnd = { s with pc := s.pc + relativeOffset opnd } ∨
    (65536 ≤ s.pc.toNat + opnd.toNat ∧ s.branch flag e opnd =
      { s with pc := s.pc + relativeOffset opnd, status := .outOfBounds (s.pc + relativeOffset opnd) }) := by
  by_cases h : flag = e
  · rw [branch_taken opnd h]
    rcases addToPc_cases s (relativeOffset opnd) with h' | ⟨h', h''⟩
    · exact .inr (.inl h')
    · exact .inr (.inr ⟨by simpa using h', h''⟩)
  · exact .inl (branch_not_taken opnd h)

/-- A branch reads nothing but its flag and `PC`: it commutes with every update that leaves `PC` and the run status alone. -/
theorem branch_comm (f : State → State) (s : State) (flag e : Bool) (opnd : Byte) (hpc : (f s).pc = s.pc)
    (hset : ∀ pc, f (s.setPc pc) = (f s).setPc pc)
    (hend : ∀ pc status, f ((s.setPc pc).setStatus status) = ((f s).setPc pc).setStatus status) :
    (f s).branch flag e opnd = f (s.branch flag e opnd) := by
  unfold State.branch State.addToPc
  split
  · rw [hpc]
    split
    · exact (hset _).symm
    · unfold State.overflowPc State.raiseOutOfBounds
      cases Config.pcOverflow with
      | wrap => exact (hset _).symm
      | fault => exact (hend _ _).symm
  · rfl

/-- Everything the fetch of an instruction can do in an admitted program, in the order of R83: the end of the program,
an unknown opcode, a missing operand, or an instruction with `PC` past it. -/
theorem fetchInstr_cases (s : State) (hl : s.program.length ≤ 0xFF00) :
    (s.program.length ≤ s.pc.toNat ∧ s.fetchInstr = .error { s with status := .outOfBounds s.pc }) ∨
    (∃ b, s.program.read s.pc.toNat = some b ∧ b ∉ f1Opcodes ++ f2Opcodes ∧
      s.fetchInstr = .error { s with pc := s.pc + 1#16, status := .unknownOpcode b s.pc }) ∨
    (∃ b, s.program.read s.pc.toNat = some b ∧ b ∈ f2Opcodes ∧ s.pc.toNat + 1 = s.program.length ∧
      s.fetchInstr = .error { s with pc := s.pc + 1#16, status := .outOfBounds (s.pc + 1#16) }) ∨
    (∃ b i, s.program.read s.pc.toNat = some b ∧ b ∈ f1Opcodes ∧ lookup b = some (.f1 i) ∧
      s.fetchInstr = .ok (i, { s with pc := s.pc + 1#16 })) ∨
    (∃ b o build, s.program.read s.pc.toNat = some b ∧ b ∈ f2Opcodes ∧ lookup b = some (.f2 build) ∧
      s.program.read (s.pc.toNat + 1) = some o ∧
      s.fetchInstr = .ok (build o, { s with pc := s.pc + 1#16 + 1#16 })) := by
  by_cases hend : s.program.length ≤ s.pc.toNat
  · exact .inl ⟨hend, by simp [State.fetchInstr, fetchByte_of_end hend]⟩
  obtain ⟨b, hb⟩ := Option.isSome_iff_exists.1 ((s.program.read_isSome_iff s.pc.toNat).2 (by omega))
  have hpc := toNat_pc_succ (pc := s.pc) (by omega) hl
  refine .inr ?_
  rcases opcode_cases b with hu | ⟨h1, -⟩ | ⟨h2, -⟩
  · refine .inl ⟨b, hb, hu, ?_⟩
    simp [State.fetchInstr, fetchByte_of_read hb, lookup_unknown hu, State.raiseUnknownOpcode, State.setStatus]
  · obtain ⟨i, hi, -⟩ := lookup_f1 h1
    refine .inr (.inr (.inl ⟨b, i, hb, h1, hi, ?_⟩))
    simp [State.fetchInstr, fetchByte_of_read hb, hi]
  · obtain ⟨build, hbuild, -⟩ := lookup_f2 h2
    by_cases hop : s.program.length ≤ s.pc.toNat + 1
    · refine .inr (.inl ⟨b, hb, h2, by omega, ?_⟩)
      have hfail := fetchByte_of_end (s := { s with pc := s.pc + 1#16 }) (by simpa [hpc] using hop)
      simp [State.fetchInstr, fetchByte_of_read hb, hbuild, hfail]
    · obtain ⟨o, ho⟩ := Option.isSome_iff_exists.1 ((s.program.read_isSome_iff (s.pc.toNat + 1)).2 (by omega))
      refine .inr (.inr (.inr ⟨b, o, build, hb, h2, hbuild, ho, ?_⟩))
      have hgood := fetchByte_of_read (s := { s with pc := s.pc + 1#16 }) (b := o) (by simpa [hpc] using ho)
      simp [State.fetchInstr, fetchByte_of_read hb, hbuild, hgood]

end Sys2Proof.Machine
end

