-- ==== Sys2Proof/Laws/Step.lean ====
section
/-! SUPPORT. What a step can do, said once, and how `steps` follows the host's own run. -/

namespace Sys2Proof.Machine

/-- A running step whose fetch ends the run answers the state the fetch left (R80, R81). -/
theorem step_of_fetch_error {s t : State} (h : s.Fetching) (hf : s.fetchInstr = .error t) : step s = .next t := by
  have hstep : step s = runningStep s := by simp only [step, sequencerStep, h.1]
  rw [hstep, runningStep, if_pos (show s.program.length ≤ Config.maxProgramLength from h.2), hf]

/-- A running step whose fetch gives an instruction is its handler, on the state with `PC` past it (R53). -/
theorem step_of_fetch_ok {s t : State} {i : Instr} (h : s.Fetching) (hf : s.fetchInstr = .ok (i, t)) :
    step s = exec i t := by
  have hstep : step s = runningStep s := by simp only [step, sequencerStep, h.1]
  rw [hstep, runningStep, if_pos (show s.program.length ≤ Config.maxProgramLength from h.2), hf]

/-- A step that answers a next state held a state whose run is not on, or ran one pass of an admitted program. -/
theorem step_next_cases {s t : State} (h : step s = .next t) :
    (t = s ∧ (s.status = .noRun ∨ s.status = .halted)) ∨
      (s.Fetching ∧ (s.fetchInstr = .error t ∨ ∃ i u, s.fetchInstr = .ok (i, u) ∧ exec i u = .next t)) := by
  simp only [step, sequencerStep] at h
  split at h
  · rename_i hs
    refine .inr ?_
    unfold runningStep at h
    split at h
    · rename_i hl
      refine ⟨⟨hs, hl⟩, ?_⟩
      split at h
      · cases h
        exact .inl ‹_›
      · exact .inr ⟨_, _, ‹_›, h⟩
    · cases h
  · cases h
    exact .inl ⟨rfl, .inl ‹_›⟩
  · cases h
    exact .inl ⟨rfl, .inr ‹_›⟩
  · cases h
  · cases h

/-- `steps` is the host's run of the core. -/
theorem steps_eq_run (k : Nat) (s : State) : steps k s = Host.Core.run Sys2Proof.core k s := by
  induction k generalizing s with
  | zero => rfl
  | succ k ih =>
    have hcore : Sys2Proof.core.step s = step s := rfl
    simp only [steps, Host.Core.run]
    rw [hcore]
    cases step s with
    | next t => exact ih t
    | fault r => rfl
    | refused r => rfl

end Sys2Proof.Machine
end

