-- ==== Sys2Proof/Laws/Interpret.lean ====
section
/-! SUPPORT. What the host's start of a run answers, and one induction over steps for every later claim about runs. -/

namespace Sys2Proof.Machine

/-- A start that answers a next state began a run of an admitted program on a state whose run was not on. -/
theorem start_next {program : List Byte} {s t : State} (h : start program s = .next t) :
    s.status ≠ .running ∧ program.length ≤ 0xFF00 ∧ t = s.beginRun (Memory.ofBytes program) := by
  unfold start at h
  split at h
  · cases h
  · split at h
    · cases h
    · rename_i hs hl
      cases h
      exact ⟨hs, Nat.not_lt.1 hl, rfl⟩

/-- A start of an admitted program on a state whose run is not on begins the run (R49). -/
theorem start_of_admitted {program : List Byte} {s : State} (hs : s.status ≠ .running)
    (hl : program.length ≤ 0xFF00) : start program s = .next (s.beginRun (Memory.ofBytes program)) := by
  unfold start
  rw [if_neg hs, if_neg (Nat.not_lt.2 (show program.length ≤ Config.maxProgramLength from hl))]

/-- Placing a word on a state whose run is not on is the start of a run with its two bytes as the program. -/
theorem withFetchWord_eq_beginRun {s : State} (nbits w : Nat) (hs : s.status ≠ .running) :
    s.withFetchWord nbits w = s.beginRun (Memory.ofBytes (tableWordBytes nbits w)) := by
  have hl : (tableWordBytes nbits w).length ≤ 0xFF00 := by simp [tableWordBytes]
  rw [State.withFetchWord, start_of_admitted hs hl]

/-- A relation that is reflexive and extends over a first step holds between the ends of every run of steps. -/
theorem steps_induction {R : State → State → Prop} (refl : ∀ s, R s s)
    (extend : ∀ s t u, step s = .next t → R t u → R s u) : ∀ k s t, steps k s = .next t → R s t := by
  intro k
  induction k with
  | zero =>
    intro s t h
    cases h
    exact refl s
  | succ k ih =>
    intro s t h
    rw [steps] at h
    cases hs : step s with
    | next u =>
      rw [hs] at h
      exact extend s u t hs (ih u t h)
    | fault r =>
      rw [hs] at h
      cases h
    | refused r =>
      rw [hs] at h
      cases h

end Sys2Proof.Machine
end

