-- ==== Sys2Proof/Laws/PerInstr.lean ====
section
/-! SUPPORT. Per-instruction law: an instruction that stands in a program takes as many bytes as its format says (R40). -/

namespace Sys2Proof.Laws.EncodedLength

/-- The encoder writes as many bytes as the instruction is long. -/
def Statement (i : Instr) : Prop := (encode i).length = i.length

theorem halt : Statement .halt := rfl
theorem asl : Statement .asl := rfl
theorem clc : Statement .clc := rfl
theorem and (opnd : Byte) : Statement (.and opnd) := rfl
theorem bmi (opnd : Byte) : Statement (.bmi opnd) := rfl
theorem bvc (opnd : Byte) : Statement (.bvc opnd) := rfl
theorem bcc (opnd : Byte) : Statement (.bcc opnd) := rfl
theorem lda (opnd : Byte) : Statement (.lda opnd) := rfl
theorem tax : Statement .tax := rfl
theorem bcs (opnd : Byte) : Statement (.bcs opnd) := rfl
theorem bne (opnd : Byte) : Statement (.bne opnd) := rfl
theorem beq (opnd : Byte) : Statement (.beq opnd) := rfl
theorem bit (opnd : Byte) : Statement (.bit opnd) := rfl
theorem bpl (opnd : Byte) : Statement (.bpl opnd) := rfl

end Sys2Proof.Laws.EncodedLength
end

