-- ==== Sys2Proof/Tests/Slice0.lean ====
section
/-! SUPPORT. The model's own tests. Expected results are the vectors of spec/95_test_vectors.md (named in each comment),
the encodings of spec/30_encoding.md, and witnesses that the statements' hypotheses can be met. -/

namespace Sys2Proof.Tests

open Sys2Proof Sys2Proof.Machine

/-- A constructed state with an accumulator, a status register and a counter. -/
def regs (a p : Byte) (pc : Offset) : State := { State.reset with a := a, p := p, pc := pc }

/-- A run on its way through a program, at a counter. -/
def running (program : List Byte) (pc : Offset) : State :=
  { State.reset with program := Memory.ofBytes program, pc := pc, status := .running }

/-- The next state of an outcome. -/
def after : Host.Outcome State Fault Refusal → Option State
  | .next s => some s
  | .fault _ => none
  | .refused _ => none

/-- `A` and `P` after a handler. -/
def aAndP (i : Instr) (s : State) : Option (Byte × Byte) := (after (exec i s)).map fun t => (t.a, t.p)

/-- `PC` and `P` after a handler. -/
def pcAndP (i : Instr) (s : State) : Option (Offset × Byte) := (after (exec i s)).map fun t => (t.pc, t.p)

/-- Run status and `PC` after a step. -/
def ending (s : State) : Option (RunStatus × Offset) := (after (step s)).map fun t => (t.status, t.pc)

/-! ### Well-formedness: the one check, with a term it refuses for each instruction without an opcode (R45) -/

theorem test_bit_is_ill_formed : (Instr.bit 0x41#8).wellFormed = false := by decide
theorem test_bpl_is_ill_formed : (Instr.bpl 0x03#8).wellFormed = false := by decide
theorem test_lda_is_well_formed : (Instr.lda 0xFF#8).wellFormed = true := by decide

/-! ### Decoding: words written out from R42, and the refusals of R44 -/

theorem test_decode_halt : decodeTableWord 8 0b00000000 = some .halt := by decide
theorem test_decode_asl : decodeTableWord 8 0b00001010 = some .asl := by decide
theorem test_decode_clc : decodeTableWord 8 0b00011000 = some .clc := by decide
theorem test_decode_tax : decodeTableWord 8 0b10101010 = some .tax := by decide
theorem test_decode_and : decodeTableWord 16 0b0000111100101001 = some (.and 0x0F#8) := by decide
theorem test_decode_lda : decodeTableWord 16 0b0000010110101001 = some (.lda 0x05#8) := by decide
theorem test_decode_bmi : decodeTableWord 16 0b1000000000110000 = some (.bmi 0x80#8) := by decide
theorem test_decode_bvc : decodeTableWord 16 0b0001000001010000 = some (.bvc 0x10#8) := by decide
theorem test_decode_bcc : decodeTableWord 16 0b0000001010010000 = some (.bcc 0x02#8) := by decide
theorem test_decode_bcs : decodeTableWord 16 0b1111111110110000 = some (.bcs 0xFF#8) := by decide
theorem test_decode_bne : decodeTableWord 16 0b0000000111010000 = some (.bne 0x01#8) := by decide
theorem test_decode_beq : decodeTableWord 16 0b0000000011110000 = some (.beq 0x00#8) := by decide
theorem test_short_word_has_zero_operand : decodeTableWord 8 0xA9 = some (.lda 0x00#8) := by decide
theorem test_bpl_byte_is_unknown : decodeTableWord 8 0x10 = none := by decide
theorem test_bit_bytes_are_unknown : decodeTableWord 16 0x24 = none ∧ decodeTableWord 24 0x2C = none := by decide
theorem test_table_has_twelve_distinct_opcodes :
    (dispatchTable.map Prod.fst).Nodup ∧ dispatchTable.length = 12 := by decide
theorem test_table_opcodes_are_those_of_R56 :
    ∀ b ∈ dispatchTable.map Prod.fst, b ∈ f1Opcodes ++ f2Opcodes := by decide

/-! ### Handlers (95_test_vectors.md section 2) -/

/-- V-LDA-3 -/
theorem test_lda_clears_zn : aAndP (.lda 0x7F#8) (regs 0x00#8 0xC3#8 0#16) = some (0x7F#8, 0x41#8) := by decide
/-- V-LDA-5 -/
theorem test_lda_negative : aAndP (.lda 0xFF#8) (regs 0x12#8 0x02#8 0#16) = some (0xFF#8, 0x80#8) := by decide
/-- V-TAX-1 -/
theorem test_tax_zero : (after (exec .tax { regs 0x00#8 0x80#8 0#16 with x := 0x55#8 })).map (fun t => (t.x, t.p)) =
    some (0x00#8, 0x02#8) := by decide
/-- V-TAX-2 -/
theorem test_tax_negative : (after (exec .tax (regs 0x80#8 0x01#8 0#16))).map (fun t => (t.x, t.p)) =
    some (0x80#8, 0x81#8) := by decide
/-- V-AND-3 -/
theorem test_and_keeps_cv : aAndP (.and 0x80#8) (regs 0xC0#8 0x41#8 0#16) = some (0x80#8, 0xC1#8) := by decide
/-- V-AND-5 -/
theorem test_and_zero : aAndP (.and 0x00#8) (regs 0x5A#8 0x3C#8 0#16) = some (0x00#8, 0x3E#8) := by decide
/-- V-ASL-2 -/
theorem test_asl_drops_bit_7 : aAndP .asl (regs 0x80#8 0x01#8 0#16) = some (0x00#8, 0x02#8) := by decide
/-- V-ASL-4 -/
theorem test_asl_clears_carry : aAndP .asl (regs 0xFF#8 0x41#8 0#16) = some (0xFE#8, 0xC0#8) := by decide
/-- V-BIT-2 -/
theorem test_bit_all_flags : aAndP (.bit 0xC0#8) (regs 0x3F#8 0x01#8 0#16) = some (0x3F#8, 0xC3#8) := by decide
/-- V-BIT-5 -/
theorem test_bit_keeps_unused : aAndP (.bit 0x80#8) (regs 0x80#8 0x3C#8 0#16) = some (0x80#8, 0xBC#8) := by decide
/-- V-CLC-1 -/
theorem test_clc : aAndP .clc (regs 0x00#8 0xC3#8 0#16) = some (0x00#8, 0xC2#8) := by decide
/-- V-CLC-3 -/
theorem test_clc_keeps_unused : aAndP .clc (regs 0x00#8 0x3D#8 0#16) = some (0x00#8, 0x3C#8) := by decide
/-- V-BR-1, V-BR-2 -/
theorem test_bcc : pcAndP (.bcc 0x02#8) (regs 0#8 0x00#8 0x0002#16) = some (0x0004#16, 0x00#8) ∧
    pcAndP (.bcc 0x02#8) (regs 0#8 0x01#8 0x0002#16) = some (0x0002#16, 0x01#8) := by decide
/-- V-BR-3, V-BR-4 -/
theorem test_bcs : pcAndP (.bcs 0xFF#8) (regs 0#8 0x01#8 0x0010#16) = some (0x010F#16, 0x01#8) ∧
    pcAndP (.bcs 0xFF#8) (regs 0#8 0x00#8 0x0010#16) = some (0x0010#16, 0x00#8) := by decide
/-- V-BR-5, V-BR-6 -/
theorem test_beq : pcAndP (.beq 0x00#8) (regs 0#8 0x02#8 0x0005#16) = some (0x0005#16, 0x02#8) ∧
    pcAndP (.beq 0x03#8) (regs 0#8 0x00#8 0x0005#16) = some (0x0005#16, 0x00#8) := by decide
/-- V-BR-15, V-BR-8 -/
theorem test_bne : pcAndP (.bne 0x01#8) (regs 0#8 0x3C#8 0x0002#16) = some (0x0003#16, 0x3C#8) ∧
    pcAndP (.bne 0x02#8) (regs 0#8 0x02#8 0x0007#16) = some (0x0007#16, 0x02#8) := by decide
/-- V-BR-9, V-BR-10 -/
theorem test_bmi : pcAndP (.bmi 0x80#8) (regs 0#8 0x80#8 0x0004#16) = some (0x0084#16, 0x80#8) ∧
    pcAndP (.bmi 0x80#8) (regs 0#8 0x00#8 0x0004#16) = some (0x0004#16, 0x00#8) := by decide
/-- V-BR-11, V-BR-12 -/
theorem test_bvc : pcAndP (.bvc 0x10#8) (regs 0#8 0x00#8 0x0002#16) = some (0x0012#16, 0x00#8) ∧
    pcAndP (.bvc 0x10#8) (regs 0#8 0x40#8 0x0002#16) = some (0x0002#16, 0x40#8) := by decide
/-- V-BR-13, V-BR-14 -/
theorem test_bpl : pcAndP (.bpl 0x03#8) (regs 0#8 0x00#8 0x0002#16) = some (0x0005#16, 0x00#8) ∧
    pcAndP (.bpl 0x03#8) (regs 0#8 0x80#8 0x0002#16) = some (0x0002#16, 0x80#8) := by decide

/-! ### Steps (95_test_vectors.md sections 1, 2.8 and 2.9) -/

/-- V-LOOP-1 -/
theorem test_step_halt : ending (running [0x00#8] 0#16) = some (.halted, 0x0001#16) := by decide
/-- X-7 -/
theorem test_step_unknown : ending (running [0xFF#8] 0#16) = some (.unknownOpcode 0xFF#8 0#16, 0x0001#16) := by decide
/-- X-8 -/
theorem test_step_no_operand : ending (running [0xA9#8] 0#16) = some (.outOfBounds 1#16, 0x0001#16) := by decide
/-- V-ERR-1 -/
theorem test_step_empty : ending (running [] 0#16) = some (.outOfBounds 0#16, 0x0000#16) := by decide
/-- P1, first step -/
theorem test_step_bcc : ending (running [0x90#8, 0x02#8, 0xA9#8, 0x05#8, 0x00#8] 0#16) = some (.running, 4#16) := by
  decide
/-- V-ERR-9 -/
theorem test_start_too_long : start (List.replicate 0xFF01 0x00#8) State.reset = .refused (.programTooLong 0xFF01) := by
  unfold start
  rw [List.length_replicate]
  rfl
/-- V-LOOP-2: `PC` is reset and `A` kept at the start of a run -/
theorem test_start_keeps_a : (after (start [0x0A#8, 0x00#8] { State.reset with a := 0x81#8, pc := 0x1234#16 })).map
    (fun t => (t.a, t.pc, t.status)) = some (0x81#8, 0#16, .running) := by decide
/-- A word placed after reset runs as the first instruction -/
theorem test_placed_lda : (after (step (State.reset.withFetchWord 16 0x05A9))).map (fun t => (t.a, t.pc, t.status)) =
    some (0x05#8, 2#16, .running) := by decide
/-- R94: no word is placed under a run that has not ended -/
theorem test_nothing_placed_in_a_run :
    (running [0x18#8, 0x00#8] 1#16).withFetchWord 16 0x05A9 = running [0x18#8, 0x00#8] 1#16 := by decide
/-- R79, D15 -/
theorem test_cause_codes : RunStatus.halted.causeCode = some 0 ∧ (RunStatus.unknownOpcode 0#8 0#16).causeCode = some 1 ∧
    (RunStatus.outOfBounds 0#16).causeCode = some 2 := by decide

/-! ### Witnesses: the hypotheses of each statement can be met, clause by clause and at the edges -/

theorem witness_RunStartResetsOnlyThePc :
    State.reset.status ≠ .running ∧ (List.replicate 0xFF00 0x00#8).length ≤ 0xFF00 :=
  ⟨by decide, le_of_eq List.length_replicate⟩
theorem witness_UnadmittedRunsAreRefused :
    (running [] 0#16).status = .running ∧
    (State.reset.status ≠ .running ∧ 0xFF00 < (List.replicate 0xFF01 0x00#8).length) ∧
    (0xFF00 < ({ running [] 0#16 with program := ⟨0xFF01, []⟩ } : State).program.length) :=
  ⟨by decide, ⟨by decide, lt_of_lt_of_eq (by decide : 0xFF00 < 0xFF01) List.length_replicate.symm⟩, by decide⟩
theorem witness_RunStartMeetsTheInvariant : (after (start [0x00#8] State.reset)).isSome = true := by decide
theorem witness_DecodeOfEncode : (Instr.beq 0xFF#8).wellFormed = true ∧ Instr.halt.wellFormed = true := by decide
theorem witness_EncodeOfDecode : decode [0xF0#8, 0xFF#8, 0x10#8] = .ok (.beq 0xFF#8, [0x10#8]) := rfl
theorem witness_EqualProgramsAreEqualData :
    (Memory.ofBytes [0x00#8, 0x90#8]).wf = true ∧ (⟨2, [(1, 0x90#8)]⟩ : Memory).wf = true ∧
    ∀ off, (Memory.ofBytes [0x00#8, 0x90#8]).read off = (⟨2, [(1, 0x90#8)]⟩ : Memory).read off :=
  ⟨by decide, by decide, fun _ => rfl⟩
theorem witness_MemReadGivesTheProgramByte :
    [0x18#8, 0x90#8][1]? = some 0x90#8 ∧ [0x18#8, 0x90#8].length ≤ 2 ∧
    (running [0x18#8, 0x90#8] 2#16).program = Memory.ofBytes [0x18#8, 0x90#8] ∧
    [0x18#8, 0x90#8].length ≤ (running [0x18#8, 0x90#8] 2#16).pc.toNat := by decide
/-- Both clauses, at the last byte and one past it. -/
theorem witness_FetchReadsTheProgram :
    (running [0x18#8, 0x90#8] 1#16).program = Memory.ofBytes [0x18#8, 0x90#8] ∧
    [0x18#8, 0x90#8][(running [0x18#8, 0x90#8] 1#16).pc.toNat]? = some 0x90#8 ∧
    [0x18#8, 0x90#8].length ≤ (running [0x18#8, 0x90#8] 2#16).pc.toNat := by decide
/-- The table's neighbours 0x01 and 0xF1 are unknown; 0xF0 is an F2 opcode. -/
theorem witness_UnknownOpcodeEndsTheRun :
    (running [0x01#8] 0#16).Fetching ∧ (running [0x01#8] 0#16).program.read 0 = some 0x01#8 ∧
    0x01#8 ∉ f1Opcodes ++ f2Opcodes ∧ 0xF1#8 ∉ f1Opcodes ++ f2Opcodes ∧ 0xF0#8 ∈ f2Opcodes := by decide
theorem witness_FetchPastTheEndEndsTheRun :
    ((running [0x18#8] 1#16).Fetching ∧ (running [0x18#8] 1#16).program.length ≤ (running [0x18#8] 1#16).pc.toNat) ∧
    (running [0x29#8] 0#16).Fetching ∧ (running [0x29#8] 0#16).program.read 0 = some 0x29#8 ∧ 0x29#8 ∈ f2Opcodes ∧
    (running [0x29#8] 0#16).pc.toNat + 1 = (running [0x29#8] 0#16).program.length := by decide
/-- Each clause: past the end, unknown last byte, missing operand, F1 as the last byte, F2 with its operand last. -/
theorem witness_ErrorsFollowTheCheckOrder :
    (running [] 0#16).Fetching ∧ (running [] 0#16).program.length ≤ (running [] 0#16).pc.toNat ∧
    ((running [0xFF#8] 0#16).program.read 0 = some 0xFF#8 ∧ 0xFF#8 ∉ f1Opcodes ++ f2Opcodes) ∧
    ((running [0xF0#8] 0#16).program.read 0 = some 0xF0#8 ∧ 0xF0#8 ∈ f2Opcodes ∧
      0 + 1 = (running [0xF0#8] 0#16).program.length) ∧
    ((running [0x00#8] 0#16).program.read 0 = some 0x00#8 ∧ 0x00#8 ∈ f1Opcodes) ∧
    ((running [0xF0#8, 0x00#8] 0#16).program.read 0 = some 0xF0#8 ∧
      0 + 1 < (running [0xF0#8, 0x00#8] 0#16).program.length) := by decide
/-- For StepRunsTheDecodedInstruction and DecodedInstructionsAlwaysSucceed: an F2 instruction that ends with the program. -/
theorem witness_StepRunsTheDecodedInstruction :
    (running [0x18#8, 0xA9#8, 0x05#8] 1#16).Fetching ∧
    decode ((running [0x18#8, 0xA9#8, 0x05#8] 1#16).program.bytesAt 1 2) = .ok (.lda 0x05#8, []) :=
  ⟨by decide, rfl⟩
theorem witness_PlacedWordRuns :
    (State.reset.status ≠ .running ∧ decodeTableWord 16 0xFFF0 = some (.beq 0xFF#8)) ∧
    (running [0x18#8, 0x00#8] 1#16).status = .running := by decide
theorem witness_EndedRunHoldsItsState :
    State.reset.status = .noRun ∧ (running [] 0#16).halt.status = .halted ∧
    ((running [0xFF#8] 0#16).raiseUnknownOpcode 0xFF#8 0#16).status = .unknownOpcode 0xFF#8 0#16 ∧
    ((running [] 0#16).raiseOutOfBounds 0#16).status = .outOfBounds 0#16 ∧
    after (steps 3 (running [] 0#16).halt) = some (running [] 0#16).halt := by decide
theorem witness_HaltEndsTheRun :
    (running [0x00#8] 0#16).Fetching ∧ (running [0x00#8] 0#16).program.read 0 = some 0x00#8 := by decide
/-- For the OutOfBounds clause of AndMasksTheAccumulator. -/
theorem witness_AndMasksTheAccumulator :
    (running [0x29#8] 0#16).Fetching ∧ (running [0x29#8] 0#16).program.read 0 = some 0x29#8 ∧
    (running [0x29#8] 0#16).pc.toNat + 1 = (running [0x29#8] 0#16).program.length := by decide
/-- For the OutOfBounds clause of LdaLoadsTheImmediate. -/
theorem witness_LdaLoadsTheImmediate :
    (running [0xA9#8] 0#16).Fetching ∧ (running [0xA9#8] 0#16).program.read 0 = some 0xA9#8 ∧
    (running [0xA9#8] 0#16).pc.toNat + 1 = (running [0xA9#8] 0#16).program.length := by decide
theorem witness_ClcClearsCarryOnly : (regs 0x00#8 0xC2#8 0#16).p.getLsbD 0 = false := by decide
/-- Taken at the largest sum that fits, and not taken, for a flag of each value. -/
theorem witness_BranchesFollowTheirFlag :
    (!(regs 0#8 0x00#8 0xFF00#16).p.getLsbD 0) = true ∧ (regs 0#8 0x00#8 0xFF00#16).pc.toNat + (0xFF#8).toNat < 65536 ∧
    (regs 0#8 0xC3#8 0#16).p.getLsbD 0 = true ∧ (regs 0#8 0xC3#8 0#16).p.getLsbD 1 = true ∧
    (regs 0#8 0xC3#8 0#16).p.getLsbD 6 = true ∧ (regs 0#8 0xC3#8 0#16).p.getLsbD 7 = true ∧
    (regs 0#8 0x00#8 0#16).p.getLsbD 1 = false ∧ (regs 0#8 0x00#8 0#16).p.getLsbD 6 = false ∧
    (regs 0#8 0x00#8 0#16).p.getLsbD 7 = false := by decide
/-- The smallest sum that does not fit, and the largest. -/
theorem witness_BranchPastTheCounter :
    branchCase (.bcc 0x01#8) (regs 0#8 0#8 0xFFFF#16) = some (true, 0x01#8) ∧
    65536 ≤ (regs 0#8 0#8 0xFFFF#16).pc.toNat + (0x01#8).toNat ∧
    branchCase (.bpl 0xFF#8) (regs 0#8 0#8 0xFFFF#16) = some (true, 0xFF#8) ∧
    65536 ≤ (regs 0#8 0#8 0xFFFF#16).pc.toNat + (0xFF#8).toNat := by decide
/-- V-ERR-5: a BVC past the end. -/
theorem witness_BranchTargetPastTheEnd :
    (running [0x50#8, 0x10#8, 0x00#8] 0#16).Fetching ∧
    decode ((running [0x50#8, 0x10#8, 0x00#8] 0#16).program.bytesAt 0 2) = .ok (.bvc 0x10#8, []) ∧
    branchCase (.bvc 0x10#8) (running [0x50#8, 0x10#8, 0x00#8] 0#16) = some (true, 0x10#8) ∧
    (after (step (running [0x50#8, 0x10#8, 0x00#8] 0#16))).map
      (fun t => decide (t.program.length ≤ t.pc.toNat)) = some true :=
  ⟨by decide, rfl, by decide, by decide⟩
/-- For UnusedBitsAreNeverTouched, OverflowIsKeptByEveryRun, IndexAndReservedRegistersAreInert, ProgramIsImmutable and
PcNeverDecreasesNorWraps: handlers, steps and starts that answer a next state. -/
theorem witness_next_states :
    (after (exec .asl State.reset)).isSome = true ∧ (after (exec (.bit 0x40#8) State.reset)).isSome = true ∧
    (after (steps 2 (running [0xA9#8, 0x05#8, 0x00#8] 0#16))).isSome = true ∧
    (after (step (running [0xAA#8] 0#16))).isSome = true ∧
    (after (start [0xA9#8, 0x05#8, 0x00#8] State.reset)).isSome = true ∧
    (running [0xA9#8, 0x05#8, 0x00#8] 0#16).pc.toNat ≤ 3 + 0xFF := by decide
theorem witness_CarryIsNeverSet :
    (after (exec .clc (regs 0#8 0x01#8 0#16))).isSome = true ∧ Instr.tax.writesCarry = false ∧
    State.reset.p.getLsbD 0 = false ∧ (after (exec .tax (State.reset.setCarry true))).isSome = true ∧
    (∀ o, Instr.tax ≠ .bcc o) ∧ ∀ o, Instr.tax ≠ .bcs o := by
  refine ⟨by decide, by decide, by decide, by decide, ?_, ?_⟩ <;> simp
theorem witness_ZeroAndNegativeHaveFiveWriters :
    (Instr.bcc 0x00#8).writesZN = false ∧ (after (exec (.bcc 0x00#8) State.reset)).isSome = true := by decide
theorem witness_ZeroAndNegativeFollowTheAccumulator :
    ZnFollowA (regs 0x80#8 0x80#8 0#16) ∧ Instr.tax.wellFormed = true ∧
    (after (exec .tax (regs 0x80#8 0x80#8 0#16))).isSome = true := ⟨⟨by decide, by decide⟩, by decide, by decide⟩
theorem witness_AccumulatorWritersAndReaders :
    (Instr.bit 0x00#8).writesA = false ∧ Instr.clc.readsA = false ∧ Instr.clc.writesA = false ∧
    (after (exec (.bit 0x00#8) State.reset)).isSome = true := by decide
/-- `PC` at its bound `L + 0xFF` in a run that is on, and a step that answers a next state from there. -/
theorem witness_EveryStepKeepsTheInvariant :
    (running [0x00#8] 0x0100#16).Inv ∧ (after (step (running [0x00#8] 0x0100#16))).isSome = true :=
  ⟨⟨by decide, by decide, by decide, trivial⟩, by decide⟩
theorem witness_EveryRunEndsWithinLPlusOneSteps :
    (running [0x18#8] 0#16).Fetching ∧
    (after (step (running [0x18#8] 0#16))).map (fun t => t.status) = some .running := by decide
theorem witness_InterpretAnswersOneOfThreeOutcomes :
    ((running [] 0#16).raiseOutOfBounds 0#16).status ≠ .running ∧ ([0x50#8, 0x00#8] : List Byte).length ≤ 0xFF00 := by
  decide

end Sys2Proof.Tests
end

section
/-! Laws of the handlers and of the step that the statements on who writes and who reads are assembled from: which bits
of `P` a handler writes, what a branch does, and one induction for whatever every handler keeps. -/

namespace Sys2Proof.Machine

/-! ### Single flag writes -/

@[simp] theorem State.setCarry_getLsbD (s : State) (b : Bool) (j : Nat) :
    (s.setCarry b).p.getLsbD j = if j = 0 then b else s.p.getLsbD j :=
  getLsbD_writeBit _ 0 j b (by decide)

@[simp] theorem State.setZero_getLsbD (s : State) (b : Bool) (j : Nat) :
    (s.setZero b).p.getLsbD j = if j = 1 then b else s.p.getLsbD j :=
  getLsbD_writeBit _ 1 j b (by decide)

@[simp] theorem State.setOverflow_getLsbD (s : State) (b : Bool) (j : Nat) :
    (s.setOverflow b).p.getLsbD j = if j = 6 then b else s.p.getLsbD j :=
  getLsbD_writeBit _ 6 j b (by decide)

@[simp] theorem State.setNegative_getLsbD (s : State) (b : Bool) (j : Nat) :
    (s.setNegative b).p.getLsbD j = if j = 7 then b else s.p.getLsbD j :=
  getLsbD_writeBit _ 7 j b (by decide)

/-! ### States that differ in `PC` and the run status only -/

/-- `DataKept` leaves exactly `PC` and the run status free. -/
theorem dataKept_update (s : State) (pc : Offset) (status : RunStatus) :
    DataKept s { s with pc := pc, status := status } :=
  ⟨rfl, rfl, rfl, rfl, rfl, rfl, fun _ => rfl⟩

theorem DataKept.refl (s : State) : DataKept s s := dataKept_update s s.pc s.status

theorem dataKept_branch (s : State) (flag e : Bool) (opnd : Byte) : DataKept s (s.branch flag e opnd) := by
  rcases branch_cases s flag e opnd with h | h | ⟨-, h⟩ <;> rw [h]
  · exact DataKept.refl s
  · exact dataKept_update s _ s.status
  · exact dataKept_update s _ _

/-! ### The seven branch handlers as one -/

/-- A branch on a clear flag is a branch on the flag's complement. -/
theorem branch_false (s : State) (flag : Bool) (opnd : Byte) :
    s.branch flag false opnd = s.branch (!flag) true opnd := by
  cases flag <;> rfl

/-- The handler of a branch instruction is `Branch` of R69 on the condition `branchCase` names. -/
theorem exec_of_branchCase {i : Instr} {s : State} {cond : Bool} {o : Byte} (hb : branchCase i s = some (cond, o)) :
    exec i s = .next (s.branch cond true o) := by
  cases i with
  | halt | asl | clc | and _ | lda _ | tax | bit _ => cases hb
  | bcs _ | beq _ | bmi _ => cases hb; rfl
  | bcc _ | bne _ | bvc _ | bpl _ => cases hb; exact congrArg _ (branch_false _ _ _)

/-- A branch's condition and offset depend on `P` alone. -/
theorem branchCase_congr (i : Instr) {s t : State} (hp : t.p = s.p) : branchCase i t = branchCase i s := by
  unfold branchCase
  rw [hp]

theorem dataKept_of_exec_branch {i : Instr} {s t : State} {b : Bool × Byte} (hb : branchCase i s = some b)
    (h : exec i s = .next t) : DataKept s t := by
  rw [exec_of_branchCase hb] at h
  cases h
  exact dataKept_branch s _ _ _

/-- A branch handler commutes with every update that leaves `P`, `PC` and the run status alone. -/
theorem exec_branch_comm (f : State → State) {i : Instr} {s : State} {b : Bool × Byte} (hb : branchCase i s = some b)
    (hp : (f s).p = s.p) (hpc : (f s).pc = s.pc) (hset : ∀ pc, f (s.setPc pc) = (f s).setPc pc)
    (hend : ∀ pc status, f ((s.setPc pc).setStatus status) = ((f s).setPc pc).setStatus status) :
    exec i (f s) = mapNext f (exec i s) := by
  rw [exec_of_branchCase hb, exec_of_branchCase ((branchCase_congr i hp).trans hb), mapNext,
    branch_comm f s _ _ _ hpc hset hend]

/-! ### Which bits of `P` a handler writes -/

/-- The numbers of the flags each instruction writes (R18 to R21). -/
def writtenFlags : Instr → List Nat
  | .asl => [0, 1, 7]
  | .clc => [0]
  | .and _ | .lda _ | .tax => [1, 7]
  | .bit _ => [1, 6, 7]
  | .halt | .bmi _ | .bvc _ | .bcc _ | .bcs _ | .bne _ | .beq _ | .bpl _ => []

/-- Every handler keeps the bits of `P` it does not write. -/
theorem exec_flagsKeptBut {i : Instr} {s t : State} (h : exec i s = .next t) : FlagsKeptBut (writtenFlags i) s t := by
  intro j hj
  cases i with
  | halt => cases h; rfl
  | asl | clc | and _ | lda _ | tax | bit _ =>
    cases h
    simp only [writtenFlags, List.mem_cons, List.not_mem_nil, or_false, not_or] at hj
    simp [State.setZN_getLsbD, hj]
  | bmi _ | bvc _ | bcc _ | bcs _ | bne _ | beq _ | bpl _ =>
    obtain ⟨-, -, -, -, hp, -⟩ := dataKept_of_exec_branch rfl h
    rw [hp]

/-- No handler writes a bit of `P[5:2]` (R17). -/
theorem unused_not_mem_writtenFlags (i : Instr) {j : Nat} (h2 : 2 ≤ j) (h5 : j ≤ 5) : j ∉ writtenFlags i := by
  cases i <;> simp [writtenFlags] <;> omega

/-! ### Steps -/

/-- The fetch of an instruction changes `PC` and the run status at most, and an instruction it gives is well-formed. -/
theorem fetchInstr_dataKept {s : State} (hl : s.program.length ≤ 0xFF00) :
    (∃ t, s.fetchInstr = .error t ∧ DataKept s t) ∨
      ∃ i u, s.fetchInstr = .ok (i, u) ∧ i.wellFormed = true ∧ DataKept s u := by
  rcases fetchInstr_cases s hl with ⟨-, hf⟩ | ⟨_, -, -, hf⟩ | ⟨_, -, -, -, hf⟩ | ⟨b, i, -, hb, hi, hf⟩ |
    ⟨b, o, build, -, hb, hbuild, -, hf⟩
  · exact .inl ⟨_, hf, dataKept_update s s.pc _⟩
  · exact .inl ⟨_, hf, dataKept_update s _ _⟩
  · exact .inl ⟨_, hf, dataKept_update s _ _⟩
  · obtain ⟨i', hi', -, hwf, -⟩ := lookup_f1 hb
    cases hi.symm.trans hi'
    exact .inr ⟨i, _, hf, hwf, dataKept_update s _ s.status⟩
  · obtain ⟨build', hbuild', hrow⟩ := lookup_f2 hb
    cases hbuild.symm.trans hbuild'
    obtain ⟨-, hwf, -⟩ := hrow o
    exact .inr ⟨build o, _, hf, hwf, dataKept_update s _ s.status⟩

/-- A step moves `PC` and the run status at most, or does so and then runs the handler of a well-formed instruction. -/
theorem step_next_handler {s t : State} (h : step s = .next t) :
    DataKept s t ∨ ∃ i u, i.wellFormed = true ∧ DataKept s u ∧ exec i u = .next t := by
  rcases step_next_cases h with ⟨rfl, -⟩ | ⟨hfetching, -⟩
  · exact .inl (DataKept.refl _)
  rcases fetchInstr_dataKept hfetching.2 with ⟨u, hf, hkept⟩ | ⟨i, u, hf, hwf, hkept⟩
  · rw [step_of_fetch_error hfetching hf] at h
    cases h
    exact .inl hkept
  · rw [step_of_fetch_ok hfetching hf] at h
    exact .inr ⟨i, u, hwf, hkept, h⟩

/-- A transitive relation that ignores `PC` and the run status, and that the handler of every well-formed instruction
respects, holds between the ends of every run of steps. -/
theorem steps_of_handlers {R : State → State → Prop} (kept : ∀ {s t}, DataKept s t → R s t)
    (trans : ∀ {s t u}, R s t → R t u → R s u)
    (handler : ∀ {i s t}, i.wellFormed = true → exec i s = .next t → R s t) :
    ∀ k s t, steps k s = .next t → R s t := by
  refine steps_induction (fun s => kept (DataKept.refl s)) fun s t u hstep htu => ?_
  rcases step_next_handler hstep with hst | ⟨i, v, hwf, hsv, hexec⟩
  · exact trans (kept hst) htu
  · exact trans (kept hsv) (trans (handler hwf hexec) htu)

/-! ### P[5:2] -/

theorem exec_keeps_unused_bit {j : Nat} (h2 : 2 ≤ j) (h5 : j ≤ 5) {i : Instr} {s t : State}
    (h : exec i s = .next t) : t.p.getLsbD j = s.p.getLsbD j :=
  exec_flagsKeptBut h j (unused_not_mem_writtenFlags i h2 h5)

theorem steps_keep_unused_bit {j : Nat} (h2 : 2 ≤ j) (h5 : j ≤ 5) :
    ∀ k s t, steps k s = .next t → t.p.getLsbD j = s.p.getLsbD j :=
  steps_of_handlers (R := fun s t => t.p.getLsbD j = s.p.getLsbD j)
    (fun ⟨_, _, _, _, hp, _⟩ => by rw [hp]) (fun hst htu => htu.trans hst)
    (fun _ h => exec_keeps_unused_bit h2 h5 h)

theorem start_p {program : List Byte} {s t : State} (h : start program s = .next t) : t.p = s.p := by
  obtain ⟨-, -, rfl⟩ := start_next h
  rfl

/-- Settles O30: no handler writes a bit of `P[5:2]`, and nothing else in a step or a start writes `P`. -/
theorem unusedBitsAreNeverTouched : Obligations.UnusedBitsAreNeverTouched := fun _ h2 h5 =>
  ⟨fun _ _ _ h => exec_keeps_unused_bit h2 h5 h, steps_keep_unused_bit h2 h5, fun _ _ _ h => by rw [start_p h]⟩

/-! ### The accumulator -/

theorem exec_keeps_a {i : Instr} {s t : State} (hw : i.writesA = false) (h : exec i s = .next t) : t.a = s.a := by
  cases i with
  | asl | and _ | lda _ => cases hw
  | halt | clc | tax | bit _ => cases h; rfl
  | bmi _ | bvc _ | bcc _ | bcs _ | bne _ | beq _ | bpl _ =>
    obtain ⟨ha, -⟩ := dataKept_of_exec_branch rfl h
    exact ha

/-- A handler that neither reads nor writes `A` carries another value of `A` through. -/
theorem exec_comm_a {i : Instr} (s : State) (v : Byte) (hr : i.readsA = false) (hw : i.writesA = false) :
    exec i { s with a := v } = mapNext (fun t => { t with a := v }) (exec i s) := by
  cases i with
  | asl | and _ | tax | bit _ => cases hr
  | lda _ => cases hw
  | halt | clc => rfl
  | bmi _ | bvc _ | bcc _ | bcs _ | bne _ | beq _ | bpl _ =>
    exact exec_branch_comm (fun t => { t with a := v }) rfl rfl rfl (fun _ => rfl) (fun _ _ => rfl)

/-- Settles O35, by the handlers' cases; LDA overwrites `A` before anything reads it. -/
theorem accumulatorWritersAndReaders : Obligations.AccumulatorWritersAndReaders :=
  ⟨fun _ _ _ hw h => exec_keeps_a hw h, fun _ s v hr hw => exec_comm_a s v hr hw, fun _ _ _ => rfl⟩

/-! ### `X`, `Y` and `SP` -/

theorem exec_keeps_x {i : Instr} {s t : State} (hi : i ≠ .tax) (h : exec i s = .next t) : t.x = s.x := by
  cases i with
  | tax => exact absurd rfl hi
  | halt | asl | clc | and _ | lda _ | bit _ => cases h; rfl
  | bmi _ | bvc _ | bcc _ | bcs _ | bne _ | beq _ | bpl _ =>
    obtain ⟨-, hx, -⟩ := dataKept_of_exec_branch rfl h
    exact hx

theorem exec_keeps_y_sp {i : Instr} {s t : State} (h : exec i s = .next t) : t.y = s.y ∧ t.sp = s.sp := by
  cases i with
  | halt | asl | clc | and _ | lda _ | tax | bit _ => cases h; exact ⟨rfl, rfl⟩
  | bmi _ | bvc _ | bcc _ | bcs _ | bne _ | beq _ | bpl _ =>
    obtain ⟨-, -, hy, hsp, -⟩ := dataKept_of_exec_branch rfl h
    exact ⟨hy, hsp⟩

/-- A handler other than TAX's carries other values of `X`, `Y` and `SP` through. -/
theorem exec_comm_x_y_sp {i : Instr} (s : State) (x y sp : Byte) (hi : i ≠ .tax) :
    exec i { s with x := x, y := y, sp := sp } =
      mapNext (fun t => { t with x := x, y := y, sp := sp }) (exec i s) := by
  cases i with
  | tax => exact absurd rfl hi
  | halt | asl | clc | and _ | lda _ | bit _ => rfl
  | bmi _ | bvc _ | bcc _ | bcs _ | bne _ | beq _ | bpl _ =>
    exact exec_branch_comm (fun t => { t with x := x, y := y, sp := sp }) rfl rfl rfl (fun _ => rfl) (fun _ _ => rfl)

theorem steps_keep_y_sp : ∀ k s t, steps k s = .next t → t.y = s.y ∧ t.sp = s.sp :=
  steps_of_handlers (R := fun s t => t.y = s.y ∧ t.sp = s.sp)
    (fun ⟨_, _, hy, hsp, _⟩ => ⟨hy, hsp⟩)
    (fun ⟨hy, hsp⟩ ⟨hy', hsp'⟩ => ⟨hy'.trans hy, hsp'.trans hsp⟩)
    (fun _ h => exec_keeps_y_sp h)

/-- Settles O36, by the handlers' cases and the induction over steps; TAX overwrites `X` without reading it. -/
theorem indexAndReservedRegistersAreInert : Obligations.IndexAndReservedRegistersAreInert :=
  ⟨fun _ _ _ h => ⟨fun hi => exec_keeps_x hi h, exec_keeps_y_sp h⟩,
    fun _ s x y sp hi => exec_comm_x_y_sp s x y sp hi, fun _ _ _ _ => rfl, steps_keep_y_sp⟩

end Sys2Proof.Machine
end

section
/-! Reads and fetches of a loaded program, inside the buffer and past its end (R28). -/

namespace Sys2Proof.Machine

/-- A fetch from a loaded program at or past its end raises OutOfBounds at `PC`. -/
theorem fetchByte_past_loaded_program {program : List Byte} {s : State} (hp : s.program = Memory.ofBytes program)
    (hend : program.length ≤ s.pc.toNat) : ∃ t, s.fetchByte = .error t ∧ t.status = .outOfBounds s.pc := by
  have hlen : s.program.length = program.length := by rw [hp, Memory.ofBytes_length]
  exact ⟨_, fetchByte_of_end (hlen.trans_le hend), rfl⟩

/-- Settles O10: a loaded program reads as the host's list, and a fetch where that list has ended fails. -/
theorem memReadGivesTheProgramByte : Obligations.MemReadGivesTheProgramByte :=
  ⟨fun program off _ hb => (Memory.read_ofBytes program off).trans hb,
    fun program off hend => (Memory.read_eq_none_iff (Memory.ofBytes program) off).2 hend,
    fun _ _ hp hend => fetchByte_past_loaded_program hp hend⟩

end Sys2Proof.Machine
end

section
/-! The opcode map as the decoder reads it: the twelve words, and the bytes outside them (R42, R44). -/

namespace Sys2Proof

theorem lookup_eq_none_iff (b : Byte) : lookup b = none ↔ b ∉ f1Opcodes ++ f2Opcodes :=
  ⟨not_mem_of_lookup_none, lookup_unknown⟩

/-- A byte outside the twelve is refused by name, whatever follows it (R44). -/
theorem decode_unknown {b : Byte} (h : b ∉ f1Opcodes ++ f2Opcodes) (rest : List Byte) :
    decode (b :: rest) = .error (.unknownOpcode b) := by
  simp [decode, lookup_unknown h]

/-- The bytes a 6502 gives BPL and BIT are outside the map (R45). -/
theorem bpl_bit_bytes_not_mem : ∀ b ∈ [0x10#8, 0x24#8, 0x2C#8], b ∉ f1Opcodes ++ f2Opcodes := by decide

/-- Settles O6: the table is evaluated at each of the twelve words, where only the opcode is searched for, so an F2
operand stays a variable; every byte outside the twelve is refused. -/
theorem wordsOfTheOpcodeMapDecode : Obligations.WordsOfTheOpcodeMapDecode :=
  ⟨rfl, rfl, rfl, rfl, fun _ => ⟨rfl, rfl, rfl, rfl, rfl, rfl, rfl, rfl⟩,
    fun b hb => decode_unknown (bpl_bit_bytes_not_mem b hb) [0x00#8], lookup_eq_none_iff⟩

end Sys2Proof
end

section
/-! The step at a one-byte opcode, and HALT (R53, R54). -/

namespace Sys2Proof.Machine

/-- The fetch at an F1 opcode gives the row's instruction, with `PC` moved past that one byte. -/
theorem fetchInstr_of_f1 {s : State} {b : Byte} {i : Instr} (hb : s.program.read s.pc.toNat = some b)
    (hi : lookup b = some (.f1 i)) : s.fetchInstr = .ok (i, { s with pc := s.pc + 1#16 }) := by
  simp [State.fetchInstr, fetchByte_of_read hb, hi]

/-- A running step at an F1 opcode is the handler of its row, on the state with `PC` past that one byte. -/
theorem step_of_f1 {s : State} {b : Byte} {i : Instr} (h : s.Fetching) (hb : s.program.read s.pc.toNat = some b)
    (hi : lookup b = some (.f1 i)) : step s = exec i { s with pc := s.pc + 1#16 } :=
  step_of_fetch_ok h (fetchInstr_of_f1 hb hi)

/-- The counter moves past a byte of an admitted program without a wrap (R15). -/
theorem toNat_pc_succ_of_read {s : State} {b : Byte} (h : s.Fetching) (hb : s.program.read s.pc.toNat = some b) :
    (s.pc + 1#16).toNat = s.pc.toNat + 1 :=
  toNat_pc_succ (Memory.lt_of_read hb) h.2

/-- HALT completes with the run ended and every register as it was (R54). -/
theorem exec_halt (s : State) : exec .halt s = .next { s with status := .halted } := rfl

/-- A 0x00 byte reached as an opcode ends the run (R54). -/
theorem step_of_halt {s : State} (h : s.Fetching) (hb : s.program.read s.pc.toNat = some 0x00#8) :
    step s = .next { s with pc := s.pc + 1#16, status := .halted } :=
  (step_of_f1 h hb rfl).trans (exec_halt _)

/-- Settles O19, by the row of 0x00 in the table, an F1 row, and HALT's handler; after 0xA9, an F2 opcode, the decoder
takes the next byte as the operand without looking it up. -/
theorem haltEndsTheRun : Obligations.HaltEndsTheRun :=
  ⟨exec_halt, fun _ h hb => ⟨_, step_of_halt h hb, rfl, toNat_pc_succ_of_read h hb⟩, fun _ => ⟨rfl, rfl⟩⟩

end Sys2Proof.Machine
end

section
/-! TAX, and the flag unit applied again to a value it has already seen (R60, R67). -/

namespace Sys2Proof.Machine

/-- The flag unit's two bits (R60). -/
theorem State.setZN_zero_negative (s : State) (v : Byte) :
    (s.setZN v).p.getLsbD 1 = decide (v = 0x00#8) ∧ (s.setZN v).p.getLsbD 7 = v.getLsbD 7 :=
  ⟨s.setZN_getLsbD v 1, s.setZN_getLsbD v 7⟩

/-- The flag unit leaves `P` alone where Zero and Negative already tell of the value. -/
theorem State.setZN_p_of_flags {s : State} {v : Byte} (hz : s.p.getLsbD 1 = decide (v = 0x00#8))
    (hn : s.p.getLsbD 7 = v.getLsbD 7) : (s.setZN v).p = s.p := by
  refine BitVec.eq_of_getLsbD_eq fun j _ => ?_
  rw [State.setZN_getLsbD]
  split
  · next h7 => rw [h7, hn]
  · split
    · next h1 => rw [h1, hz]
    · rfl

/-- TAX completes with `A` in `X` and the flag unit applied to it (R67). -/
theorem exec_tax (s : State) : exec .tax s = .next ((s.setX s.a).setZN s.a) := rfl

/-- LDA completes with the operand in `A` and the flag unit applied to it (R66). -/
theorem exec_lda (v : Byte) (s : State) : exec (.lda v) s = .next ((s.setA v).setZN v) := rfl

/-- TAX's `Y`, `SP`, `PC`, run status and program are those it was given. -/
theorem controlKept_of_exec_tax {s t : State} (h : exec .tax s = .next t) : ControlKept s t := by
  cases h
  exact ⟨rfl, rfl, rfl, rfl, rfl, fun _ => rfl⟩

/-- TAX leaves `P` alone where Zero and Negative already tell of `A`. -/
theorem exec_tax_keeps_p {s t : State} (h : exec .tax s = .next t) (hz : s.p.getLsbD 1 = decide (s.a = 0x00#8))
    (hn : s.p.getLsbD 7 = s.a.getLsbD 7) : t.p = s.p := by
  cases h
  exact State.setZN_p_of_flags (s := s.setX s.a) hz hn

/-- Settles O25, by TAX's equation and the flag unit's bits; after LDA the flag unit has already seen the value TAX
copies, so TAX writes Zero and Negative as they stand. -/
theorem taxCopiesTheAccumulator : Obligations.TaxCopiesTheAccumulator := by
  refine ⟨fun _ => rfl, fun s => ?_, fun v s => ?_⟩
  · obtain ⟨hz, hn⟩ := (s.setX s.a).setZN_zero_negative s.a
    exact ⟨_, exec_tax s, rfl, rfl, hz, hn, exec_flagsKeptBut (exec_tax s), controlKept_of_exec_tax (exec_tax s)⟩
  · obtain ⟨hz, hn⟩ := (s.setA v).setZN_zero_negative v
    exact ⟨_, _, exec_lda v s, exec_tax _, rfl, rfl, exec_tax_keeps_p (exec_tax _) hz hn⟩

end Sys2Proof.Machine
end

section
/-! CLC, and writing a bit with the value it already has (R68). -/

namespace Sys2Proof.Machine

/-- Writing a bit with the value it has leaves the byte as it is. -/
theorem writeBit_of_getLsbD {v : Byte} {i : Nat} {b : Bool} (hi : i < 8) (hb : v.getLsbD i = b) :
    writeBit v i b = v := by
  refine BitVec.eq_of_getLsbD_eq fun j _ => ?_
  rw [getLsbD_writeBit v i j b hi]
  split
  · next hj => rw [hj, hb]
  · rfl

/-- Writing Carry with the value it has leaves the whole state as it is. -/
theorem State.setCarry_of_getLsbD {s : State} {b : Bool} (hb : s.p.getLsbD 0 = b) : s.setCarry b = s :=
  congrArg s.setP (writeBit_of_getLsbD (by decide) hb)

/-- A write of Carry reaches `P` only. -/
theorem State.setCarry_controlKept (s : State) (b : Bool) : ControlKept s (s.setCarry b) :=
  ⟨rfl, rfl, rfl, rfl, rfl, fun _ => rfl⟩

/-- CLC completes with Carry written 0 (R68). -/
theorem exec_clc (s : State) : exec .clc s = .next (s.setCarry false) := rfl

/-- Settles O26, by CLC's equation: one write of Carry, which is no change where Carry is already 0. -/
theorem clcClearsCarryOnly : Obligations.ClcClearsCarryOnly :=
  ⟨fun _ => rfl, fun s => ⟨_, exec_clc s, s.setCarry_getLsbD false 0, exec_flagsKeptBut (exec_clc s),
    exec_keeps_a rfl (exec_clc s), exec_keeps_x (by decide) (exec_clc s), s.setCarry_controlKept false,
    State.setCarry_of_getLsbD⟩⟩

end Sys2Proof.Machine
end

section
/-! What the decoder can answer, and the branches against their condition (R45, R69 to R76). -/

namespace Sys2Proof

/-- The decoder gives only instructions that have an opcode (R45). -/
theorem decode_wellFormed {bytes rest : List Byte} {i : Instr} (h : decode bytes = .ok (i, rest)) :
    i.wellFormed = true := by
  unfold decode at h
  split at h
  · cases h
  · split at h
    · cases h
    · next j hj =>
      obtain ⟨j', hj', -, hwf, -⟩ := lookup_f1 (mem_of_lookup_f1 hj)
      cases hj.symm.trans hj'
      cases h
      exact hwf
    · next build hbuild =>
      obtain ⟨build', hbuild', hrow⟩ := lookup_f2 (mem_of_lookup_f2 hbuild)
      cases hbuild.symm.trans hbuild'
      split at h
      · cases h
      · next o _ =>
        obtain ⟨-, hwf, -⟩ := hrow o
        cases h
        exact hwf

end Sys2Proof

namespace Sys2Proof.Machine

/-- A taken branch whose sum fits the counter moves `PC` by its offset and leaves the rest of the state (R69). -/
theorem branch_taken_fits {s : State} {opnd : Byte} (hfit : s.pc.toNat + opnd.toNat < 65536) :
    s.branch true true opnd = { s with pc := s.pc + relativeOffset opnd } ∧
      (s.pc + relativeOffset opnd).toNat = s.pc.toNat + opnd.toNat := by
  rw [← toNat_relativeOffset] at hfit ⊢
  rw [branch_taken opnd rfl]
  exact addToPc_fits hfit

/-- A branch handler follows the condition `branchCase` names. -/
theorem branchesOn_of_branchCase {i : Instr} {s : State} {cond : Bool} {o : Byte}
    (hb : branchCase i s = some (cond, o)) : BranchesOn cond o i s := by
  unfold BranchesOn
  rw [exec_of_branchCase hb]
  refine ⟨?taken, ?notTaken⟩
  case taken =>
    rintro rfl hfit
    obtain ⟨hbranch, hpc⟩ := branch_taken_fits hfit
    rw [hbranch]
    exact ⟨_, rfl, hpc, rfl, dataKept_update s _ s.status⟩
  case notTaken =>
    rintro rfl
    rw [branch_not_taken o Bool.false_ne_true]

/-- Settles O27: the seven handlers are one branch, each on the condition `branchCase` names for it; the six opcodes are
rows of the table, and BPL has none. -/
theorem branchesFollowTheirFlag : Obligations.BranchesFollowTheirFlag := by
  refine ⟨fun _ _ => ⟨?_, ?_, ?_, ?_, ?_, ?_, ?_⟩, fun _ _ => ⟨rfl, rfl, rfl, rfl, rfl, rfl⟩,
    fun _ _ _ h => Bool.false_ne_true (decode_wellFormed h)⟩ <;> exact branchesOn_of_branchCase rfl

end Sys2Proof.Machine
end

section
/-! The state after construction (R91). -/

namespace Sys2Proof.Machine

/-- Every flag and every unused bit of `P` is 0 at reset. -/
@[simp] theorem State.reset_getLsbD (j : Nat) : State.reset.p.getLsbD j = false := BitVec.getLsbD_zero

/-- Settles O1: each field of `State.reset` is the literal zero, and the bits of `P` are `State.reset_getLsbD`. -/
theorem constructionZeroesEveryField : Obligations.ConstructionZeroesEveryField :=
  ⟨rfl, rfl, rfl, rfl, rfl, rfl, State.reset_getLsbD⟩

end Sys2Proof.Machine
end

section
/-! The decoder and the encoder against each other (R39 to R45). -/

namespace Sys2Proof

/-- Settles O7: each of the twelve opcodes selects its own row, which takes the operand as it is and leaves the bytes
after it; BIT and BPL are not well-formed. -/
theorem decodeOfEncode : Obligations.DecodeOfEncode := by
  intro i rest hwf
  cases i with
  | bit _ | bpl _ => cases hwf
  | halt | asl | clc | and _ | bmi _ | bvc _ | bcc _ | lda _ | tax | bcs _ | bne _ | beq _ => rfl

/-- The row an F1 opcode was found in. -/
theorem row_of_lookup_f1 {b : Byte} {i : Instr} (h : lookup b = some (.f1 i)) :
    encode i = [b] ∧ i.wellFormed = true ∧ i.length = 1 ∧ (i = .halt ↔ b = 0x00#8) := by
  obtain ⟨j, hj, hrow⟩ := lookup_f1 (mem_of_lookup_f1 h)
  cases h.symm.trans hj
  exact hrow

/-- The row an F2 opcode was found in. -/
theorem row_of_lookup_f2 {b : Byte} {build : Byte → Instr} (h : lookup b = some (.f2 build)) (o : Byte) :
    encode (build o) = [b, o] ∧ (build o).wellFormed = true ∧ (build o).length = 2 ∧ build o ≠ .halt := by
  obtain ⟨build', hbuild', hrow⟩ := lookup_f2 (mem_of_lookup_f2 h)
  cases h.symm.trans hbuild'
  exact hrow o

/-- The two ways the decoder gives an instruction: an F1 row, or an F2 row with its operand (R40). -/
theorem decode_ok_cases {bytes rest : List Byte} {i : Instr} (h : decode bytes = .ok (i, rest)) :
    (∃ b, lookup b = some (.f1 i) ∧ bytes = b :: rest) ∨
      ∃ b o build, lookup b = some (.f2 build) ∧ i = build o ∧ bytes = b :: o :: rest := by
  unfold decode at h
  split at h
  · cases h
  · next b _ =>
    split at h
    · cases h
    · next hb =>
      cases h
      exact .inl ⟨b, hb, rfl⟩
    · next build hb =>
      split at h
      · cases h
      · next o _ =>
        cases h
        exact .inr ⟨b, o, build, hb, rfl, rfl⟩

theorem encode_append_of_decode {bytes rest : List Byte} {i : Instr} (h : decode bytes = .ok (i, rest)) :
    encode i ++ rest = bytes := by
  rcases decode_ok_cases h with ⟨b, hb, rfl⟩ | ⟨b, o, build, hb, rfl, rfl⟩
  · obtain ⟨hbytes, -⟩ := row_of_lookup_f1 hb
    rw [hbytes]
    rfl
  · obtain ⟨hbytes, -⟩ := row_of_lookup_f2 hb o
    rw [hbytes]
    rfl

/-- Settles O8, by the row the decoder took; BIT and BPL are not well-formed. -/
theorem encodeOfDecode : Obligations.EncodeOfDecode := by
  intro bytes rest i h
  have hwf := decode_wellFormed h
  refine ⟨encode_append_of_decode h, hwf, ?_, ?_⟩ <;> rintro o rfl <;> cases hwf

end Sys2Proof
end

section
/-! The canonical form of a program buffer determines its cells (R27, log 2). -/

namespace Sys2Proof.Machine

theorem Memory.cellsWf_cons {len low o : Nat} {b : Byte} {cells : List Host.Cell} :
    Memory.cellsWf len low ((o, b) :: cells) = true ↔
      low ≤ o ∧ o < len ∧ b ≠ Memory.unlisted ∧ Memory.cellsWf len (o + 1) cells = true := by
  simp [Memory.cellsWf, and_assoc]

@[simp] theorem Memory.lookupCell_head (o : Nat) (b : Byte) (cells : List Host.Cell) :
    Memory.lookupCell o ((o, b) :: cells) = b := if_pos rfl

theorem Memory.lookupCell_tail {off o : Nat} (b : Byte) (cells : List Host.Cell) (h : off ≠ o) :
    Memory.lookupCell off ((o, b) :: cells) = Memory.lookupCell off cells := if_neg h

/-- Below its first offset a canonical cell list gives the unlisted byte. -/
theorem Memory.lookupCell_of_lt_low {len low off : Nat} {cells : List Host.Cell}
    (hwf : Memory.cellsWf len low cells = true) (h : off < low) : Memory.lookupCell off cells = Memory.unlisted := by
  induction cells generalizing low with
  | nil => rfl
  | cons cell cells ih =>
    obtain ⟨o, b⟩ := cell
    obtain ⟨hlow, -, -, htail⟩ := Memory.cellsWf_cons.1 hwf
    rw [Memory.lookupCell_tail b cells (by omega)]
    exact ih htail (by omega)

/-- A cell of one canonical list is not below all the cells of another that reads the same at its offset. -/
theorem Memory.low_le_of_lookup_eq {len low o : Nat} {b : Byte} {ys : List Host.Cell} (hb : b ≠ Memory.unlisted)
    (hwf : Memory.cellsWf len low ys = true) (h : b = Memory.lookupCell o ys) : low ≤ o := by
  by_contra hlt
  exact hb (h.trans (Memory.lookupCell_of_lt_low hwf (by omega)))

/-- Canonical cell lists that read alike inside the buffer are equal. -/
theorem Memory.cells_eq_of_lookup_eq {len low : Nat} {xs ys : List Host.Cell}
    (hx : Memory.cellsWf len low xs = true) (hy : Memory.cellsWf len low ys = true)
    (h : ∀ off, off < len → Memory.lookupCell off xs = Memory.lookupCell off ys) : xs = ys := by
  induction xs generalizing low ys with
  | nil =>
    cases ys with
    | nil => rfl
    | cons cell ys =>
      obtain ⟨o, b⟩ := cell
      obtain ⟨-, ho, hb, -⟩ := Memory.cellsWf_cons.1 hy
      exact absurd ((h o ho).trans (Memory.lookupCell_head o b ys)).symm hb
  | cons cell xs ih =>
    obtain ⟨o, b⟩ := cell
    obtain ⟨hlow, ho, hb, hxs⟩ := Memory.cellsWf_cons.1 hx
    have hread := (Memory.lookupCell_head o b xs).symm.trans (h o ho)
    cases ys with
    | nil => exact absurd hread hb
    | cons cell' ys =>
      obtain ⟨o', b'⟩ := cell'
      obtain ⟨hlow', ho', hb', hys⟩ := Memory.cellsWf_cons.1 hy
      have hread' := (Memory.lookupCell_head o' b' ys).symm.trans (h o' ho').symm
      have hle : o' ≤ o :=
        Memory.low_le_of_lookup_eq hb (Memory.cellsWf_cons.2 ⟨le_rfl, ho', hb', hys⟩) hread
      have hge : o ≤ o' :=
        Memory.low_le_of_lookup_eq hb' (Memory.cellsWf_cons.2 ⟨le_rfl, ho, hb, hxs⟩) hread'
      obtain rfl : o = o' := by omega
      obtain rfl : b = b' := hread.trans (Memory.lookupCell_head o b' ys)
      refine congrArg _ (ih hxs hys fun off hoff => ?_)
      by_cases hlt : off < o + 1
      · rw [Memory.lookupCell_of_lt_low hxs hlt, Memory.lookupCell_of_lt_low hys hlt]
      · have htails := h off hoff
        rwa [Memory.lookupCell_tail b xs (by omega), Memory.lookupCell_tail b ys (by omega)] at htails

theorem Memory.length_le_of_read_eq {m n : Memory} (h : ∀ off, m.read off = n.read off) : n.length ≤ m.length :=
  (n.read_eq_none_iff _).1 ((h m.length).symm.trans ((m.read_eq_none_iff _).2 le_rfl))

theorem Memory.read_of_lt {m : Memory} {off : Nat} (h : off < m.length) :
    m.read off = some (Memory.lookupCell off m.cells) := if_pos h

/-- Settles O9: the length is where reading stops, and the cells are determined by what each offset inside reads as. -/
theorem equalProgramsAreEqualData : Obligations.EqualProgramsAreEqualData := by
  intro m n hm hn h
  have hlen : m.length = n.length :=
    le_antisymm (Memory.length_le_of_read_eq fun off => (h off).symm) (Memory.length_le_of_read_eq h)
  unfold Memory.wf at hm hn
  rw [hlen] at hm
  have hcells : m.cells = n.cells := Memory.cells_eq_of_lookup_eq hm hn fun off hoff =>
    Option.some.inj <| by
      rw [← Memory.read_of_lt (hlen ▸ hoff), ← Memory.read_of_lt hoff]
      exact h off
  cases m
  cases n
  cases hlen
  cases hcells
  rfl

end Sys2Proof.Machine
end

section
/-! A running step, by what the program holds at `PC` (R50 to R53, R83). -/

namespace Sys2Proof.Machine

/-- A counter that stays within an admitted length moves without a wrap (R15). -/
theorem toNat_pc_add {pc : Offset} {n : Nat} (h : pc.toNat + n ≤ 0xFF00) :
    (pc + BitVec.ofNat 16 n).toNat = pc.toNat + n := by
  rw [BitVec.toNat_add, BitVec.toNat_ofNat]
  omega

/-- A running step at or past the end raises OutOfBounds at `PC` (R81). -/
theorem step_of_end {s : State} (h : s.Fetching) (hend : s.program.length ≤ s.pc.toNat) :
    step s = .next { s with status := .outOfBounds s.pc } :=
  step_of_fetch_error h (by simp [State.fetchInstr, fetchByte_of_end hend])

/-- A running step at a byte outside the table raises UnknownOpcode, with `PC` one past it (R51, R80). -/
theorem step_of_unknown {s : State} {b : Byte} (h : s.Fetching) (hb : s.program.read s.pc.toNat = some b)
    (hu : b ∉ f1Opcodes ++ f2Opcodes) :
    step s = .next { s with pc := s.pc + 1#16, status := .unknownOpcode b s.pc } :=
  step_of_fetch_error h (by
    simp [State.fetchInstr, fetchByte_of_read hb, lookup_unknown hu, State.raiseUnknownOpcode, State.setStatus])

/-- A running step at an F2 opcode that is the last byte raises OutOfBounds where its operand would be (R81). -/
theorem step_of_missing_operand {s : State} {op : Byte} (h : s.Fetching) (hb : s.program.read s.pc.toNat = some op)
    (h2 : op ∈ f2Opcodes) (hlast : s.pc.toNat + 1 = s.program.length) :
    step s = .next { s with pc := s.pc + 1#16, status := .outOfBounds (s.pc + 1#16) } := by
  obtain ⟨build, hbuild, -⟩ := lookup_f2 h2
  have hfail := fetchByte_of_end (s := { s with pc := s.pc + 1#16 })
    (by rw [toNat_pc_succ_of_read h hb, hlast])
  exact step_of_fetch_error h (by simp [State.fetchInstr, fetchByte_of_read hb, hbuild, hfail])

/-- A running step at an F2 opcode with its operand is the handler of its row, on the state with `PC` past both bytes. -/
theorem step_of_f2 {s : State} {b o : Byte} {build : Byte → Instr} (h : s.Fetching)
    (hb : s.program.read s.pc.toNat = some b) (hbuild : lookup b = some (.f2 build))
    (ho : s.program.read (s.pc.toNat + 1) = some o) :
    step s = exec (build o) { s with pc := s.pc + 2#16 } := by
  have hoperand := fetchByte_of_read (s := { s with pc := s.pc + 1#16 }) (b := o)
    (by rw [toNat_pc_succ_of_read h hb]; exact ho)
  have hpc : s.pc + 1#16 + 1#16 = s.pc + 2#16 := BitVec.add_assoc _ _ _
  exact step_of_fetch_ok h (by simp [State.fetchInstr, fetchByte_of_read hb, hbuild, hoperand, hpc])

/-- A running step at a complete instruction, F1 or F2, is its handler on the state with `PC` past it; it is HALT
exactly for 0x00. -/
theorem step_of_complete {s : State} {op : Byte} (h : s.Fetching) (hb : s.program.read s.pc.toNat = some op)
    (hc : op ∈ f1Opcodes ∨ (op ∈ f2Opcodes ∧ s.pc.toNat + 1 < s.program.length)) :
    ∃ i : Instr, (i = .halt ↔ op = 0x00#8) ∧ 0 < i.length ∧ s.pc.toNat + i.length ≤ s.program.length ∧
      step s = exec i { s with pc := s.pc + BitVec.ofNat 16 i.length } := by
  rcases hc with h1 | ⟨h2, hlt⟩
  · obtain ⟨i, hi, -, -, hlen, hhalt⟩ := lookup_f1 h1
    refine ⟨i, hhalt, by omega, ?_, ?_⟩ <;> rw [hlen]
    · exact Memory.lt_of_read hb
    · exact step_of_f1 h hb hi
  · obtain ⟨build, hbuild, hrow⟩ := lookup_f2 h2
    obtain ⟨o, ho⟩ := Option.isSome_iff_exists.1 ((s.program.read_isSome_iff _).2 hlt)
    obtain ⟨-, -, hlen, hne⟩ := hrow o
    have h00 : op ≠ 0x00#8 := by
      rintro rfl
      exact absurd h2 (by decide)
    refine ⟨build o, by simp [hne, h00], by omega, ?_, ?_⟩ <;> rw [hlen]
    · exact hlt
    · exact step_of_f2 h hb hbuild ho

/-! ### The bytes at `PC` -/

/-- The first of the bytes at an offset is what the offset reads as; the others are the bytes at the next offset. -/
theorem Memory.bytesAt_eq_cons {m : Memory} {off n : Nat} {b : Byte} {rest : List Byte}
    (h : m.bytesAt off (n + 1) = b :: rest) : m.read off = some b ∧ m.bytesAt (off + 1) n = rest := by
  rw [Memory.bytesAt] at h
  split at h
  · next hb =>
    cases h
    exact ⟨hb, rfl⟩
  · cases h

/-- Where the bytes at `PC` decode, the instruction lies inside the program and the step is its handler. -/
theorem step_of_decode {s : State} {i : Instr} {rest : List Byte} (h : s.Fetching)
    (hd : decode (s.program.bytesAt s.pc.toNat 2) = .ok (i, rest)) :
    s.pc.toNat + i.length ≤ s.program.length ∧
      step s = exec i { s with pc := s.pc + BitVec.ofNat 16 i.length } := by
  rcases decode_ok_cases hd with ⟨b, hi, hbytes⟩ | ⟨b, o, build, hbuild, rfl, hbytes⟩
  · obtain ⟨-, -, hlen, -⟩ := row_of_lookup_f1 hi
    obtain ⟨hb, -⟩ := Memory.bytesAt_eq_cons hbytes
    rw [hlen]
    exact ⟨Memory.lt_of_read hb, step_of_f1 h hb hi⟩
  · obtain ⟨-, -, hlen, -⟩ := row_of_lookup_f2 hbuild o
    obtain ⟨hb, htail⟩ := Memory.bytesAt_eq_cons hbytes
    obtain ⟨ho, -⟩ := Memory.bytesAt_eq_cons htail
    rw [hlen]
    exact ⟨Memory.lt_of_read ho, step_of_f2 h hb hbuild ho⟩

/-- Settles O15: the decoder and the fetch take the same row, and the instruction ends inside an admitted program. -/
theorem stepRunsTheDecodedInstruction : Obligations.StepRunsTheDecodedInstruction := by
  intro s i rest h hd
  obtain ⟨hin, hstep⟩ := step_of_decode h hd
  exact ⟨decode_wellFormed hd, hstep, toNat_pc_add (hin.trans h.2)⟩

end Sys2Proof.Machine
end

section
/-! What every handler does to the program, the run status and `PC` (R53, R69, R82). -/

namespace Sys2Proof.Machine

/-- Every handler completes on every state (R58). -/
theorem exec_completes (i : Instr) (s : State) : ∃ t, exec i s = .next t := by
  cases i with
  | halt | asl | clc | and _ | bmi _ | bvc _ | bcc _ | lda _ | tax | bcs _ | bne _ | beq _ | bit _ | bpl _ =>
    exact ⟨_, rfl⟩

theorem branch_program (s : State) (flag e : Bool) (opnd : Byte) : (s.branch flag e opnd).program = s.program := by
  rcases branch_cases s flag e opnd with h | h | ⟨-, h⟩ <;> rw [h]

/-- No handler writes the program (R7, R30). -/
theorem exec_program {i : Instr} {s t : State} (h : exec i s = .next t) : t.program = s.program := by
  cases i with
  | halt | asl | clc | and _ | lda _ | tax | bit _ => cases h; rfl
  | bmi _ | bvc _ | bcc _ | bcs _ | bne _ | beq _ | bpl _ =>
    cases h
    exact branch_program s _ _ _

/-- A branch whose farthest target fits the counter leaves the run on as it was and moves `PC` by 0 to 0xFF (R69). -/
theorem branch_status_pc {s : State} (cond : Bool) (opnd : Byte) (hfit : s.pc.toNat + 0xFF < 65536) :
    (s.branch cond true opnd).status = s.status ∧ s.pc.toNat ≤ (s.branch cond true opnd).pc.toNat ∧
      (s.branch cond true opnd).pc.toNat ≤ s.pc.toNat + 0xFF := by
  have hopnd : opnd.toNat < 256 := opnd.isLt
  cases cond with
  | false =>
    rw [branch_not_taken opnd Bool.false_ne_true]
    exact ⟨rfl, le_rfl, Nat.le_add_right _ _⟩
  | true =>
    obtain ⟨hbranch, hpc⟩ := branch_taken_fits (s := s) (opnd := opnd) (by omega)
    rw [hbranch]
    refine ⟨rfl, ?_, ?_⟩ <;> rw [hpc] <;> omega

/-- A handler other than HALT's, on a counter with room for a branch, keeps the run status and moves `PC` by 0 to 0xFF. -/
theorem exec_status_pc {i : Instr} {s t : State} (hi : i ≠ .halt) (hfit : s.pc.toNat + 0xFF < 65536)
    (h : exec i s = .next t) :
    t.status = s.status ∧ s.pc.toNat ≤ t.pc.toNat ∧ t.pc.toNat ≤ s.pc.toNat + 0xFF := by
  cases i with
  | halt => exact absurd rfl hi
  | asl | clc | and _ | lda _ | tax | bit _ =>
    cases h
    exact ⟨rfl, le_rfl, Nat.le_add_right _ _⟩
  | bmi _ | bvc _ | bcc _ | bcs _ | bne _ | beq _ | bpl _ =>
    rw [exec_of_branchCase rfl] at h
    cases h
    exact branch_status_pc _ _ hfit

/-- A handler leaves a run on, or for HALT ended, when the counter has room for a branch (R82). -/
theorem exec_status {i : Instr} {s t : State} (hs : s.status = .running) (hfit : s.pc.toNat + 0xFF < 65536)
    (h : exec i s = .next t) : t.status = if i = .halt then .halted else .running := by
  by_cases hi : i = .halt
  · cases hi
    cases h
    rfl
  · obtain ⟨hstatus, -⟩ := exec_status_pc hi hfit h
    rw [hstatus, hs, if_neg hi]

/-- An instruction inside an admitted program leaves its handler a counter with room for a branch (R15, D1). -/
theorem room_past_instr {s : State} {n : Nat} (h : s.Fetching) (hin : s.pc.toNat + n ≤ s.program.length) :
    (s.pc + BitVec.ofNat 16 n).toNat + 0xFF < 65536 := by
  obtain ⟨-, hl⟩ := h
  rw [toNat_pc_add (by omega)]
  omega

end Sys2Proof.Machine
end

section
/-! The invariant, and what one pass of the loop does to it (R15, R54, R59, R80, R81). -/

namespace Sys2Proof.Machine

/-! ### What the run status says -/

theorem statusTrue_of_running {s : State} (h : s.status = .running) : StatusTrue s := by
  unfold StatusTrue
  rw [h]
  trivial

theorem statusTrue_halted_iff {s : State} (h : s.status = .halted) :
    StatusTrue s ↔ 0 < s.pc.toNat ∧ s.program.read (s.pc.toNat - 1) = some 0x00#8 := by
  unfold StatusTrue
  rw [h]

theorem statusTrue_unknownOpcode_iff {s : State} {b : Byte} {off : Offset} (h : s.status = .unknownOpcode b off) :
    StatusTrue s ↔ s.pc.toNat = off.toNat + 1 ∧ s.program.read off.toNat = some b ∧ b ∉ f1Opcodes ++ f2Opcodes := by
  unfold StatusTrue
  rw [h]

theorem statusTrue_outOfBounds_iff {s : State} {off : Offset} (h : s.status = .outOfBounds off) :
    StatusTrue s ↔ s.pc = off ∧ s.program.length ≤ off.toNat := by
  unfold StatusTrue
  rw [h]

/-! ### One pass of the loop -/

theorem RunStatus.ne_running_of_ended {status : RunStatus} (h : status.ended = true) : status ≠ .running := by
  rintro rfl
  cases h

/-- What every pass of the loop over an admitted program guarantees of the state it leaves. -/
structure LoopPass (s t : State) : Prop where
  program : t.program = s.program
  statusTrue : StatusTrue t
  running_or_ended : t.status = .running ∨ t.status.ended = true
  pc_le : s.pc.toNat ≤ t.pc.toNat
  pc_bound : t.pc.toNat = s.pc.toNat ∨ t.pc.toNat ≤ s.program.length + 0xFF
  /-- A pass that leaves the run on started inside the program and moved `PC` forward (R59). -/
  progress : t.status = .running → s.pc.toNat < s.program.length ∧ s.pc.toNat < t.pc.toNat

theorem loopPass_of_end {s : State} (hend : s.program.length ≤ s.pc.toNat) :
    LoopPass s { s with status := .outOfBounds s.pc } where
  program := rfl
  statusTrue := (statusTrue_outOfBounds_iff rfl).2 ⟨rfl, hend⟩
  running_or_ended := .inr rfl
  pc_le := le_rfl
  pc_bound := .inl rfl
  progress h := nomatch h

/-- A pass that ends the run one byte past its opcode, with a true status. -/
theorem loopPass_of_ended {s : State} {op : Byte} {status : RunStatus} (h : s.Fetching)
    (hb : s.program.read s.pc.toNat = some op) (hended : status.ended = true)
    (htrue : StatusTrue { s with pc := s.pc + 1#16, status := status }) :
    LoopPass s { s with pc := s.pc + 1#16, status := status } :=
  have hpc := toNat_pc_succ_of_read h hb
  have hlt := Memory.lt_of_read hb
  { program := rfl
    statusTrue := htrue
    running_or_ended := .inr hended
    pc_le := by simp only [hpc]; omega
    pc_bound := .inr (by simp only [hpc]; omega)
    progress := fun hrun => absurd hrun (RunStatus.ne_running_of_ended hended) }

theorem loopPass_of_unknown {s : State} {b : Byte} (h : s.Fetching) (hb : s.program.read s.pc.toNat = some b)
    (hu : b ∉ f1Opcodes ++ f2Opcodes) :
    LoopPass s { s with pc := s.pc + 1#16, status := .unknownOpcode b s.pc } :=
  loopPass_of_ended h hb rfl ((statusTrue_unknownOpcode_iff rfl).2 ⟨toNat_pc_succ_of_read h hb, hb, hu⟩)

theorem loopPass_of_missing_operand {s : State} {op : Byte} (h : s.Fetching)
    (hb : s.program.read s.pc.toNat = some op) (hlast : s.pc.toNat + 1 = s.program.length) :
    LoopPass s { s with pc := s.pc + 1#16, status := .outOfBounds (s.pc + 1#16) } :=
  loopPass_of_ended h hb rfl
    ((statusTrue_outOfBounds_iff rfl).2 ⟨rfl, (hlast.symm.trans (toNat_pc_succ_of_read h hb).symm).le⟩)

theorem loopPass_of_halt {s : State} (h : s.Fetching) (hb : s.program.read s.pc.toNat = some 0x00#8) :
    LoopPass s { s with pc := s.pc + 1#16, status := .halted } := by
  refine loopPass_of_ended h hb rfl ((statusTrue_halted_iff rfl).2 ?_)
  simp only [toNat_pc_succ_of_read h hb]
  exact ⟨Nat.succ_pos _, hb⟩

/-- The handler of an instruction other than HALT, on the state with `PC` past it, completes the pass. -/
theorem loopPass_of_exec {s t : State} {i : Instr} (h : s.Fetching) (hi : i ≠ .halt) (hpos : 0 < i.length)
    (hin : s.pc.toNat + i.length ≤ s.program.length)
    (hexec : exec i { s with pc := s.pc + BitVec.ofNat 16 i.length } = .next t) : LoopPass s t := by
  obtain ⟨hstatus, hge, hle⟩ := exec_status_pc hi (room_past_instr h hin) hexec
  simp only [toNat_pc_add (hin.trans h.2)] at hge hle
  have hrun : t.status = .running := hstatus.trans h.1
  have hprogram := exec_program hexec
  exact
    { program := hprogram
      statusTrue := statusTrue_of_running hrun
      running_or_ended := .inl hrun
      pc_le := by omega
      pc_bound := .inr (by omega)
      progress := fun _ => ⟨by omega, by omega⟩ }

/-- The pass at a complete instruction: HALT ends the run, every other instruction leaves it on. -/
theorem step_loopPass_of_complete {s : State} {op : Byte} (h : s.Fetching)
    (hb : s.program.read s.pc.toNat = some op)
    (hc : op ∈ f1Opcodes ∨ (op ∈ f2Opcodes ∧ s.pc.toNat + 1 < s.program.length)) :
    ∃ t, step s = .next t ∧ LoopPass s t := by
  obtain ⟨i, hhalt, hpos, hin, hstep⟩ := step_of_complete h hb hc
  by_cases hi : i = .halt
  · rw [hhalt.1 hi] at hb
    exact ⟨_, step_of_halt h hb, loopPass_of_halt h hb⟩
  · obtain ⟨t, ht⟩ := exec_completes i { s with pc := s.pc + BitVec.ofNat 16 i.length }
    exact ⟨t, hstep.trans ht, loopPass_of_exec h hi hpos hin ht⟩

/-- Every running step of an admitted program completes and is such a pass, in each of the cases of R83. -/
theorem step_loopPass {s : State} (h : s.Fetching) : ∃ t, step s = .next t ∧ LoopPass s t := by
  rcases fetchInstr_cases s h.2 with ⟨hend, -⟩ | ⟨b, hb, hu, -⟩ | ⟨b, hb, h2, hlast, -⟩ | ⟨b, i, hb, h1, -, -⟩ |
    ⟨b, o, build, hb, h2, -, ho, -⟩
  · exact ⟨_, step_of_end h hend, loopPass_of_end hend⟩
  · exact ⟨_, step_of_unknown h hb hu, loopPass_of_unknown h hb hu⟩
  · exact ⟨_, step_of_missing_operand h hb h2 hlast, loopPass_of_missing_operand h hb hlast⟩
  · exact step_loopPass_of_complete h hb (.inl h1)
  · exact step_loopPass_of_complete h hb (.inr ⟨h2, Memory.lt_of_read ho⟩)

/-- A step that answers a next state held it, or was a pass of the loop. -/
theorem eq_or_loopPass_of_step {s t : State} (h : step s = .next t) : t = s ∨ (s.Fetching ∧ LoopPass s t) := by
  rcases step_next_cases h with ⟨rfl, -⟩ | ⟨hfetching, -⟩
  · exact .inl rfl
  · obtain ⟨u, hu, hpass⟩ := step_loopPass hfetching
    cases h.symm.trans hu
    exact .inr ⟨hfetching, hpass⟩

/-! ### The invariant -/

theorem LoopPass.inv {s t : State} (hpass : LoopPass s t) (hinv : s.Inv) : t.Inv := by
  obtain ⟨hwf, hlen, hpc, -⟩ := hinv
  refine ⟨?_, ?_, ?_, hpass.statusTrue⟩
  · rw [hpass.program]
    exact hwf
  · rw [hpass.program]
    exact hlen
  · rw [hpass.program]
    rcases hpass.pc_bound with heq | hle
    · rw [heq]
      exact hpc
    · exact hle

/-- Settles O39: a held state is unchanged, and a pass of the loop keeps the program, bounds `PC` and leaves a true
status. -/
theorem everyStepKeepsTheInvariant : Obligations.EveryStepKeepsTheInvariant := by
  intro s t hinv h
  rcases eq_or_loopPass_of_step h with rfl | ⟨-, hpass⟩
  · exact hinv
  · exact hpass.inv hinv

theorem steps_keep_inv : ∀ k s t, steps k s = .next t → s.Inv → t.Inv :=
  steps_induction (R := fun s t => s.Inv → t.Inv) (fun _ hinv => hinv)
    fun s t _ hstep htu hinv => htu (everyStepKeepsTheInvariant s t hinv hstep)

/-- The state a started run begins in meets the invariant, whatever state it is started from. -/
theorem beginRun_inv (s : State) {program : List Byte} (hl : program.length ≤ 0xFF00) :
    (s.beginRun (Memory.ofBytes program)).Inv :=
  ⟨Memory.wf_ofBytes program, hl, Nat.zero_le _, statusTrue_of_running rfl⟩

/-- Settles O5: a start that answers has begun a run of an admitted program. -/
theorem runStartMeetsTheInvariant : Obligations.RunStartMeetsTheInvariant := by
  intro program s t h
  obtain ⟨-, hl, rfl⟩ := start_next h
  exact beginRun_inv s hl

/-- Settles O2: the buffer is empty, `PC` is 0, and there is no run to tell of. -/
theorem resetMeetsTheInvariant : Obligations.ResetMeetsTheInvariant :=
  ⟨Memory.wf_reset, Nat.zero_le _, Nat.zero_le _, trivial⟩

/-! ### `PC` over a run -/

/-- How `PC` may move between two states of one run: forward, and not past `L + 0xFF` from below it. -/
def PcForward (s t : State) : Prop :=
  t.program.length = s.program.length ∧ s.pc.toNat ≤ t.pc.toNat ∧
    (s.pc.toNat ≤ s.program.length + 0xFF → t.pc.toNat ≤ s.program.length + 0xFF)

theorem PcForward.refl (s : State) : PcForward s s := ⟨rfl, le_rfl, id⟩

theorem PcForward.trans {s t u : State} (hst : PcForward s t) (htu : PcForward t u) : PcForward s u := by
  obtain ⟨hlen, hle, hbound⟩ := hst
  obtain ⟨hlen', hle', hbound'⟩ := htu
  rw [hlen] at hbound'
  exact ⟨hlen'.trans hlen, hle.trans hle', fun h => hbound' (hbound h)⟩

theorem LoopPass.pcForward {s t : State} (hpass : LoopPass s t) : PcForward s t := by
  refine ⟨by rw [hpass.program], hpass.pc_le, fun hs => ?_⟩
  rcases hpass.pc_bound with heq | hle
  · exact heq.trans_le hs
  · exact hle

theorem step_pcForward {s t : State} (h : step s = .next t) : PcForward s t := by
  rcases eq_or_loopPass_of_step h with rfl | ⟨-, hpass⟩
  · exact PcForward.refl _
  · exact hpass.pcForward

theorem steps_pcForward : ∀ k s t, steps k s = .next t → PcForward s t :=
  steps_induction PcForward.refl fun _ _ _ hstep htu => (step_pcForward hstep).trans htu

theorem start_pc {program : List Byte} {s t : State} (h : start program s = .next t) : t.pc = 0x0000#16 := by
  obtain ⟨-, -, rfl⟩ := start_next h
  rfl

/-- Settles O38: `PcForward` holds over one pass of the loop, hence over every number of steps. -/
theorem pcNeverDecreasesNorWraps : Obligations.PcNeverDecreasesNorWraps := by
  refine ⟨fun s t h => ?_, fun k s t h => ?_, fun s h => ?_, fun _ _ _ h => start_pc h⟩
  · obtain ⟨-, hle, -⟩ := step_pcForward h
    exact hle
  · obtain ⟨-, hle, hbound⟩ := steps_pcForward k s t h
    exact ⟨hle, hbound⟩
  · exact Nat.add_le_add_right h.2 0xFF

end Sys2Proof.Machine
end

section
/-! Whole runs: they end, and how (R48, R55, R59). -/

namespace Sys2Proof.Machine

theorem steps_succ {s t : State} (k : Nat) (h : step s = .next t) : steps (k + 1) s = steps k t := by
  rw [steps, h]

theorem runToEnd_succ_of_running {s t : State} (fuel : Nat) (h : step s = .next t) (ht : t.status = .running) :
    runToEnd (fuel + 1) s = runToEnd fuel t := by
  rw [runToEnd, h]
  exact if_pos ht

theorem runToEnd_succ_of_not_running {s t : State} (fuel : Nat) (h : step s = .next t) (ht : t.status ≠ .running) :
    runToEnd (fuel + 1) s = .next t := by
  rw [runToEnd, h]
  exact if_neg ht

/-- A run ends within as many steps as bytes are left from `PC`, and one more; `runToEnd` with that fuel answers its end. -/
theorem runToEnd_ends {fuel : Nat} {s : State} (h : s.Fetching) (hfuel : s.program.length - s.pc.toNat < fuel) :
    ∃ k t, k ≤ fuel ∧ steps k s = .next t ∧ runToEnd fuel s = .next t ∧ t.status.ended = true := by
  induction fuel generalizing s with
  | zero => omega
  | succ fuel ih =>
    obtain ⟨t, hstep, hpass⟩ := step_loopPass h
    rcases hpass.running_or_ended with hrun | hend
    · obtain ⟨hlt, hgt⟩ := hpass.progress hrun
      have ht : t.Fetching := ⟨hrun, by rw [hpass.program]; exact h.2⟩
      obtain ⟨k, u, hk, hsteps, hu, hended⟩ := ih ht (by rw [hpass.program]; omega)
      exact ⟨k + 1, u, Nat.succ_le_succ hk, (steps_succ k hstep).trans hsteps,
        (runToEnd_succ_of_running fuel hstep hrun).trans hu, hended⟩
    · exact ⟨1, t, Nat.succ_le_succ (Nat.zero_le _), steps_succ 0 hstep,
        runToEnd_succ_of_not_running fuel hstep (RunStatus.ne_running_of_ended hend), hend⟩

/-- Settles O40: `L - PC` falls with every step that leaves the run on. -/
theorem everyRunEndsWithinLPlusOneSteps : Obligations.EveryRunEndsWithinLPlusOneSteps := by
  refine ⟨fun s t h hstep hrun => ?_, fun s h => ?_⟩
  · obtain ⟨u, hu, hpass⟩ := step_loopPass h
    cases hstep.symm.trans hu
    exact (hpass.progress hrun).2
  · obtain ⟨k, t, hk, hsteps, -, hended⟩ := runToEnd_ends (fuel := s.program.length + 1) h (by omega)
    exact ⟨k, t, hk, hsteps, hended⟩

/-! ### The program over a run -/

theorem SameProgram.trans {s t u : State} (hst : SameProgram s t) (htu : SameProgram t u) : SameProgram s u := by
  obtain ⟨hlen, hread⟩ := hst
  obtain ⟨hlen', hread'⟩ := htu
  exact ⟨hlen'.trans hlen, fun off => (hread' off).trans (hread off)⟩

theorem sameProgram_of_eq {s t : State} (h : t.program = s.program) : SameProgram s t :=
  ⟨by rw [h], fun _ => by rw [h]⟩

theorem steps_sameProgram : ∀ k s t, steps k s = .next t → SameProgram s t :=
  steps_of_handlers (fun ⟨_, _, _, _, _, hsame⟩ => hsame) SameProgram.trans
    fun _ h => sameProgram_of_eq (exec_program h)

theorem start_read {program : List Byte} {s t : State} (h : start program s = .next t) (off : Nat) :
    t.program.read off = program[off]? := by
  obtain ⟨-, -, rfl⟩ := start_next h
  exact Memory.read_ofBytes program off

theorem read_of_started_run {program : List Byte} {s t u : State} {k : Nat} (hstart : start program s = .next t)
    (hsteps : steps k t = .next u) (off : Nat) : u.program.read off = program[off]? := by
  obtain ⟨-, hread⟩ := steps_sameProgram k t u hsteps
  exact (hread off).trans (start_read hstart off)

/-- Settles O37: no handler writes the program, so every state of a run reads as the one it started in. -/
theorem programIsImmutable : Obligations.ProgramIsImmutable :=
  ⟨fun _ _ _ h => exec_program h, fun _ _ _ _ _ off hstart hsteps => read_of_started_run hstart hsteps off⟩

/-! ### Starting a run -/

/-- Settles O3: `beginRun` writes `PC`, the run status and the program, and a loaded program reads as the host's list. -/
theorem runStartResetsOnlyThePc : Obligations.RunStartResetsOnlyThePc := fun program _ hs hl =>
  ⟨_, start_of_admitted hs hl, rfl, rfl, rfl, rfl, rfl, rfl, rfl, rfl, Memory.read_ofBytes program⟩

theorem start_of_running (program : List Byte) {s : State} (hs : s.status = .running) :
    start program s = .refused .nestedInterpret := if_pos hs

theorem start_of_too_long {program : List Byte} {s : State} (hs : s.status ≠ .running)
    (hl : 0xFF00 < program.length) : start program s = .refused (.programTooLong program.length) := by
  unfold start
  rw [if_neg hs]
  exact if_pos hl

theorem step_of_too_long {s : State} (hs : s.status = .running) (hl : 0xFF00 < s.program.length) :
    step s = .refused (.programTooLong s.program.length) := by
  simp only [step, sequencerStep, hs]
  exact if_neg (Nat.not_le.2 hl)

/-- After a start `interpret` runs the begun state to its end. -/
theorem interpret_of_start {program : List Byte} {s t : State} (h : start program s = .next t) :
    interpret program s = runToEnd (program.length + 1) t := by
  rw [interpret, h]

/-- The empty program ends at its first opcode fetch (R29). -/
theorem interpret_nil {s : State} (hs : s.status ≠ .running) :
    interpret [] s = .next { s with pc := 0x0000#16, program := ⟨0, []⟩, status := .outOfBounds 0x0000#16 } := by
  have hstart := start_of_admitted (program := []) hs (Nat.zero_le _)
  have hstep := step_of_end (s := s.beginRun (Memory.ofBytes [])) ⟨rfl, Nat.zero_le _⟩ (Nat.zero_le _)
  exact (interpret_of_start hstart).trans
    (runToEnd_succ_of_not_running 0 hstep (RunStatus.ne_running_of_ended rfl))

/-- Settles O4: the two guards of `start`, the guard of the running step, and one step of the empty program. -/
theorem unadmittedRunsAreRefused : Obligations.UnadmittedRunsAreRefused :=
  ⟨fun program _ hs => start_of_running program hs, fun _ _ hs hl => start_of_too_long hs hl,
    fun _ hs hl => step_of_too_long hs hl, fun _ hs => interpret_nil hs⟩

/-! ### The outcome of `interpret` -/

/-- An ended run's true status, told of the host's own list. -/
theorem outcome_of_ended {program : List Byte} {t : State} (hend : t.status.ended = true) (htrue : StatusTrue t)
    (hread : ∀ off, t.program.read off = program[off]?) :
    (t.status = .halted ∧ 0 < t.pc.toNat ∧ program[t.pc.toNat - 1]? = some 0x00#8) ∨
    (∃ b off, t.status = .unknownOpcode b off ∧ program[off.toNat]? = some b ∧ b ∉ f1Opcodes ++ f2Opcodes ∧
      t.pc.toNat = off.toNat + 1) ∨
    (∃ off, t.status = .outOfBounds off ∧ program.length ≤ off.toNat ∧ t.pc = off) := by
  cases hs : t.status with
  | noRun | running =>
    rw [hs] at hend
    cases hend
  | halted =>
    obtain ⟨hpos, h00⟩ := (statusTrue_halted_iff hs).1 htrue
    exact .inl ⟨rfl, hpos, (hread _).symm.trans h00⟩
  | unknownOpcode b off =>
    obtain ⟨hpc, hb, hu⟩ := (statusTrue_unknownOpcode_iff hs).1 htrue
    exact .inr (.inl ⟨b, off, rfl, (hread _).symm.trans hb, hu, hpc⟩)
  | outOfBounds off =>
    obtain ⟨hpc, hlen⟩ := (statusTrue_outOfBounds_iff hs).1 htrue
    have hnone := (t.program.read_eq_none_iff _).2 hlen
    exact .inr (.inr ⟨off, rfl, List.getElem?_eq_none_iff.1 ((hread _).symm.trans hnone), hpc⟩)

/-- Settles O41: the run started by `interpret` ends within its fuel, and the invariant, kept from the start, makes the
status it ends with true of the program. -/
theorem interpretAnswersOneOfThreeOutcomes : Obligations.InterpretAnswersOneOfThreeOutcomes := by
  intro program s hs hl
  have hstart := start_of_admitted hs hl
  obtain ⟨k, t, -, hsteps, hrun, hended⟩ :=
    runToEnd_ends (fuel := program.length + 1) (s := s.beginRun (Memory.ofBytes program)) ⟨rfl, hl⟩
      (Nat.lt_succ_of_le (Nat.sub_le _ _))
  obtain ⟨hy, hsp⟩ := steps_keep_y_sp k _ t hsteps
  obtain ⟨-, -, -, htrue⟩ := steps_keep_inv k _ t hsteps (beginRun_inv s hl)
  have hread := read_of_started_run hstart hsteps
  exact ⟨t, (interpret_of_start hstart).trans hrun, hy, hsp, hread, outcome_of_ended hended htrue hread⟩

end Sys2Proof.Machine
end

section
/-! The outcomes of a fetch and of a step, one statement per outcome (R44, R50, R55, R80 to R83, R90). -/

namespace Sys2Proof.Machine

/-- Settles O11: inside the program the fetch reads the host's byte below the admitted length; past it nothing is read. -/
theorem fetchReadsTheProgram : Obligations.FetchReadsTheProgram := by
  intro program s hl hp
  have hlen : s.program.length = program.length := by rw [hp, Memory.ofBytes_length]
  refine ⟨fun b hb => ?_, fun hend => fetchByte_of_end (hlen.trans_le hend)⟩
  have hread : s.program.read s.pc.toNat = some b := by rw [hp, Memory.read_ofBytes, hb]
  exact ⟨_, fetchByte_of_read hread, rfl, toNat_pc_succ (Memory.lt_of_read hread) (hlen.trans_le hl)⟩

/-- 244 of the 256 byte values have no table entry (R44). -/
theorem unknown_byte_count : (List.range 256).countP (fun n => (lookup (BitVec.ofNat 8 n)).isNone) = 244 := by
  decide +kernel

/-- An F2 opcode takes every byte as its operand (R44). -/
theorem decode_of_f2 {op : Byte} (h : op ∈ f2Opcodes) (o : Byte) (rest : List Byte) :
    ∃ i, decode (op :: o :: rest) = .ok (i, rest) := by
  obtain ⟨build, hbuild, -⟩ := lookup_f2 h
  exact ⟨build o, by simp [decode, hbuild]⟩

/-- Settles O12: the step at an unknown byte, the count over the table, and the F2 rows. -/
theorem unknownOpcodeEndsTheRun : Obligations.UnknownOpcodeEndsTheRun :=
  ⟨fun _ _ h hb hu => ⟨_, step_of_unknown h hb hu, rfl, toNat_pc_succ_of_read h hb⟩, unknown_byte_count,
    fun _ h o rest => decode_of_f2 h o rest⟩

/-- Settles O13: the opcode fetch fails at or past the end, the operand fetch at the end. -/
theorem fetchPastTheEndEndsTheRun : Obligations.FetchPastTheEndEndsTheRun :=
  ⟨fun _ h hend => step_of_end h hend, fun _ _ h hb h2 hlast =>
    ⟨_, step_of_missing_operand h hb h2 hlast, rfl, (toNat_pc_succ_of_read h hb).trans hlast⟩⟩

/-- The handler of an instruction inside an admitted program leaves the run on, or for HALT ended (R82). -/
theorem exec_status_past_instr {s t : State} {i : Instr} (h : s.Fetching)
    (hin : s.pc.toNat + i.length ≤ s.program.length)
    (hexec : exec i { s with pc := s.pc + BitVec.ofNat 16 i.length } = .next t) :
    t.status = if i = .halt then .halted else .running :=
  exec_status (s := { s with pc := s.pc + BitVec.ofNat 16 i.length }) h.1 (room_past_instr h hin) hexec

/-- The run status after a complete instruction (R82). -/
theorem status_of_complete {s t : State} {op : Byte} (h : s.Fetching) (hb : s.program.read s.pc.toNat = some op)
    (hc : op ∈ f1Opcodes ∨ (op ∈ f2Opcodes ∧ s.pc.toNat + 1 < s.program.length)) (ht : step s = .next t) :
    t.status = if op = 0x00#8 then .halted else .running := by
  obtain ⟨i, hhalt, -, hin, hstep⟩ := step_of_complete h hb hc
  have hstatus := exec_status_past_instr h hin (hstep.symm.trans ht)
  simpa only [hhalt] using hstatus

/-- Settles O14, by the step at each of the four places R83 tells apart. -/
theorem errorsFollowTheCheckOrder : Obligations.ErrorsFollowTheCheckOrder := by
  intro s h
  obtain ⟨t, ht, -⟩ := step_loopPass h
  refine ⟨t, ht, fun hend => ?pastEnd, fun op hb =>
    ⟨fun hu => ?unknown, fun h2 hlast => ?missingOperand, fun hc => status_of_complete h hb hc ht⟩⟩
  case pastEnd =>
    cases ht.symm.trans (step_of_end h hend)
    rfl
  case unknown =>
    cases ht.symm.trans (step_of_unknown h hb hu)
    rfl
  case missingOperand =>
    cases ht.symm.trans (step_of_missing_operand h hb h2 hlast)
    rfl

/-- Settles O17: a decoded instruction is its handler with room for a branch, and no handler has another outcome. -/
theorem decodedInstructionsAlwaysSucceed : Obligations.DecodedInstructionsAlwaysSucceed := by
  refine ⟨fun s i rest h hd => ?_, exec_completes⟩
  obtain ⟨hin, hstep⟩ := step_of_decode h hd
  obtain ⟨t, ht⟩ := exec_completes i { s with pc := s.pc + BitVec.ofNat 16 i.length }
  exact ⟨t, hstep.trans ht, exec_status_past_instr h hin ht⟩

/-! ### States whose run is not on -/

theorem step_of_held {s : State} (h : s.status = .noRun ∨ s.status = .halted) : step s = .next s := by
  rcases h with h | h <;> simp only [step, sequencerStep, h]

theorem step_of_unknownOpcode {s : State} {b : Byte} {off : Offset} (h : s.status = .unknownOpcode b off) :
    step s = .fault (.unknownOpcode b off) := by
  simp only [step, sequencerStep, h]

theorem step_of_outOfBounds {s : State} {off : Offset} (h : s.status = .outOfBounds off) :
    step s = .fault (.outOfBounds off) := by
  simp only [step, sequencerStep, h]

theorem step_of_not_running {s t : State} (hs : s.status ≠ .running) (h : step s = .next t) : t = s := by
  rcases eq_or_loopPass_of_step h with heq | ⟨hfetching, -⟩
  · exact heq
  · exact absurd hfetching.1 hs

theorem steps_of_not_running : ∀ k s t, steps k s = .next t → s.status ≠ .running → t = s :=
  steps_induction (R := fun s t => s.status ≠ .running → t = s) (fun _ _ => rfl) fun s t u hstep htu hs => by
    cases step_of_not_running hs hstep
    exact htu hs

/-- Settles O18, by the step at each status, and the induction over steps. -/
theorem endedRunHoldsItsState : Obligations.EndedRunHoldsItsState :=
  ⟨fun _ h => step_of_held h, fun _ _ _ h => step_of_unknownOpcode h, fun _ _ h => step_of_outOfBounds h,
    fun k s t hs h => steps_of_not_running k s t h hs⟩

/-! ### A placed word -/

theorem decode_of_decodeTableWord {nbits w : Nat} {i : Instr} (h : decodeTableWord nbits w = some i) :
    ∃ rest, decode (tableWordBytes nbits w) = .ok (i, rest) := by
  unfold decodeTableWord at h
  split at h
  · next rest hd =>
    cases h
    exact ⟨rest, hd⟩
  · cases h

/-- The bytes of a placed word are those at offset 0. -/
theorem bytesAt_placed_word (nbits w : Nat) :
    (Memory.ofBytes (tableWordBytes nbits w)).bytesAt 0 2 = tableWordBytes nbits w := by
  simp [Memory.bytesAt, Memory.read_ofBytes, tableWordBytes]

/-- Settles O16: a placed word is a started run whose bytes at `PC` are the word's; under a run `start` refuses. -/
theorem placedWordRuns : Obligations.PlacedWordRuns := by
  refine ⟨fun s nbits w i hs hd => ?_, fun s nbits w hs => ?_⟩
  · obtain ⟨rest, hrest⟩ := decode_of_decodeTableWord hd
    rw [withFetchWord_eq_beginRun nbits w hs]
    obtain ⟨-, hstep⟩ := step_of_decode (s := s.beginRun (Memory.ofBytes (tableWordBytes nbits w)))
      ⟨rfl, by simp [State.beginRun, tableWordBytes]⟩
      ((congrArg decode (bytesAt_placed_word nbits w)).trans hrest)
    rw [hstep]
    exact congrArg (fun pc => exec i { s.beginRun (Memory.ofBytes (tableWordBytes nbits w)) with pc := pc })
      (BitVec.zero_add _)
  · rw [State.withFetchWord, start_of_running _ hs]

end Sys2Proof.Machine
end

section
/-! The branches past the counter and past the end of the program (R69, R77, D18). -/

namespace Sys2Proof.Machine

/-- A taken branch leaves `PC` at the sum mod 2^16 (R69, D18). -/
theorem branch_taken_pc (s : State) (opnd : Byte) :
    (s.branch true true opnd).pc = s.pc + relativeOffset opnd := by
  rw [branch_taken opnd rfl]
  rcases addToPc_cases s (relativeOffset opnd) with h | ⟨-, h⟩ <;> rw [h]

/-- A branch keeps the run status, or has ended the run with OutOfBounds at the `PC` it leaves. -/
theorem branch_status (s : State) (flag e : Bool) (opnd : Byte) :
    (s.branch flag e opnd).status = s.status ∨
      (s.branch flag e opnd).status = .outOfBounds (s.branch flag e opnd).pc := by
  rcases branch_cases s flag e opnd with h | h | ⟨-, h⟩ <;> rw [h]
  · exact .inl rfl
  · exact .inl rfl
  · exact .inr rfl

/-- Settles O28: the sum mod 2^16 is the sum less 65536, and both values of `pc_overflow` are cases of `branch_status`. -/
theorem branchPastTheCounter : Obligations.BranchPastTheCounter := by
  intro i s o hb hover
  refine ⟨_, exec_of_branchCase hb, ?_, branch_status s true true o, dataKept_branch s true true o⟩
  have ho : o.toNat < 256 := o.isLt
  have hpc : s.pc.toNat < 65536 := s.pc.isLt
  rw [branch_taken_pc, BitVec.toNat_add, toNat_relativeOffset]
  omega

/-- A branch instruction that has an opcode takes two bytes (R39). -/
theorem length_of_branchCase {i : Instr} {s : State} {b : Bool × Byte} (hwf : i.wellFormed = true)
    (hb : branchCase i s = some b) : i.length = 2 := by
  cases i with
  | halt | asl | clc | and _ | lda _ | tax | bit _ => cases hb
  | bpl _ => cases hwf
  | bmi _ | bvc _ | bcc _ | bcs _ | bne _ | beq _ => rfl

/-- The handler of a taken branch whose sum fits the counter moves `PC` by its offset and does nothing else (R69). -/
theorem exec_taken_branch {i : Instr} {s : State} {o : Byte} (hb : branchCase i s = some (true, o))
    (hfit : s.pc.toNat + o.toNat < 65536) :
    exec i s = .next { s with pc := s.pc + relativeOffset o } ∧
      (s.pc + relativeOffset o).toNat = s.pc.toNat + o.toNat := by
  obtain ⟨hbranch, hpc⟩ := branch_taken_fits hfit
  exact ⟨(exec_of_branchCase hb).trans (congrArg _ hbranch), hpc⟩

/-- Settles O29: the branch starts past its two bytes and its sum fits the counter; the state it leaves is a running one
at the target, where the next fetch fails if that is past the end. -/
theorem branchTargetPastTheEnd : Obligations.BranchTargetPastTheEnd := by
  intro s i rest o h hd hb
  obtain ⟨hin, hstep⟩ := step_of_decode h hd
  have hlen := length_of_branchCase (decode_wellFormed hd) hb
  rw [hlen] at hin hstep
  have hpast : (s.pc + BitVec.ofNat 16 2).toNat = s.pc.toNat + 2 := toNat_pc_add (hin.trans h.2)
  have hroom := room_past_instr h hin
  have ho : o.toNat < 256 := o.isLt
  obtain ⟨hexec, hpc⟩ := exec_taken_branch (s := { s with pc := s.pc + BitVec.ofNat 16 2 })
    ((branchCase_congr i rfl).trans hb) (show (s.pc + BitVec.ofNat 16 2).toNat + o.toNat < 65536 by omega)
  exact ⟨_, hstep.trans hexec, h.1, hpc.trans (congrArg (· + o.toNat) hpast), dataKept_update s _ s.status,
    fun hend => step_of_end h hend⟩

end Sys2Proof.Machine
end

section
/-! LDA, AND, ASL and BIT: what they leave in `A` and in `P` (R60 to R66). -/

namespace Sys2Proof.Machine

/-- A handler that is neither HALT's nor a branch's keeps `Y`, `SP`, `PC`, the run status and the program. -/
theorem exec_controlKept {i : Instr} {s t : State} (hi : i ≠ .halt) (hb : branchCase i s = none)
    (h : exec i s = .next t) : ControlKept s t := by
  cases i with
  | halt => exact absurd rfl hi
  | asl | clc | and _ | lda _ | tax | bit _ =>
    cases h
    exact ⟨rfl, rfl, rfl, rfl, rfl, fun _ => rfl⟩
  | bmi _ | bvc _ | bcc _ | bcs _ | bne _ | beq _ | bpl _ => cases hb

/-- AND completes with the masked `A` and the flag unit applied to it (R63). -/
theorem exec_and (o : Byte) (s : State) : exec (.and o) s = .next ((s.setA (s.a &&& o)).setZN (s.a &&& o)) := rfl

/-- ASL completes with the shifted `A`, its low bit in Carry and the flag unit applied to it (R61). -/
theorem exec_asl (s : State) :
    exec .asl s = .next (((s.setA (shiftLeftOne s.a)).setCarry ((shiftLeftOne s.a).getLsbD 0)).setZN
      (shiftLeftOne s.a)) := rfl

/-- BIT completes with its three flags written (R64). -/
theorem exec_bit (o : Byte) (s : State) :
    exec (.bit o) s =
      .next (((s.setZero (isZero (s.a &&& o))).setOverflow (o.getLsbD 6)).setNegative (o.getLsbD 7)) := rfl

/-! ### The flag unit -/

/-- The flag unit keeps every bit of `P` but Zero and Negative (R60). -/
theorem State.setZN_flagsKeptBut (s : State) (v : Byte) : FlagsKeptBut [1, 7] s (s.setZN v) := by
  intro j hj
  simp only [List.mem_cons, List.not_mem_nil, or_false, not_or] at hj
  obtain ⟨h1, h7⟩ := hj
  rw [State.setZN_getLsbD, if_neg h7, if_neg h1]

/-- The flag unit reaches `P` only. -/
theorem State.setZN_controlKept (s : State) (v : Byte) : ControlKept s (s.setZN v) :=
  ⟨rfl, rfl, rfl, rfl, rfl, fun _ => rfl⟩

/-- The flag unit leaves the whole state alone where Zero and Negative already tell of the value. -/
theorem State.setZN_of_flags {s : State} {v : Byte} (hz : s.p.getLsbD 1 = decide (v = 0x00#8))
    (hn : s.p.getLsbD 7 = v.getLsbD 7) : s.setZN v = s :=
  congrArg s.setP (State.setZN_p_of_flags hz hn)

/-- Applied to `A` itself, the flag unit leaves Zero and Negative telling of it. -/
theorem State.setZN_znFollowA {s : State} {v : Byte} (ha : s.a = v) : ZnFollowA (s.setZN v) := by
  unfold ZnFollowA
  rw [State.setZN_a, ha]
  exact s.setZN_zero_negative v

/-- Settles O20, by the flag unit's bits and frame, and by the equations of the four handlers that use it. -/
theorem flagUnitWritesZeroAndNegative : Obligations.FlagUnitWritesZeroAndNegative := by
  refine ⟨fun s v => ?_, fun s v => exec_lda v s, fun s v => exec_and v s, exec_tax, fun s => ?_⟩
  · obtain ⟨hz, hn⟩ := s.setZN_zero_negative v
    exact ⟨hz, hn, s.setZN_flagsKeptBut v, rfl, rfl, s.setZN_controlKept v⟩
  · obtain ⟨hz, hn⟩ := State.setZN_znFollowA (s := (s.setA (shiftLeftOne s.a)).setCarry _) (v := shiftLeftOne s.a) rfl
    exact ⟨_, exec_asl s, hz, hn⟩

/-! ### ASL -/

theorem toNat_shiftLeftOne (a : Byte) : (shiftLeftOne a).toNat = 2 * a.toNat % 256 := by
  simp [shiftLeftOne, BitVec.toNat_shiftLeft, Nat.shiftLeft_eq, Nat.mul_comm]

/-- The low bit of a doubled byte is 0 (R62). -/
@[simp] theorem shiftLeftOne_getLsbD_zero (a : Byte) : (shiftLeftOne a).getLsbD 0 = false := by
  simp [shiftLeftOne]

theorem shiftLeftOne_getLsbD_seven (a : Byte) : (shiftLeftOne a).getLsbD 7 = a.getLsbD 6 := by
  simp [shiftLeftOne]

/-- ASL leaves the low bit of its result in Carry: the flag unit does not touch it. -/
theorem exec_asl_carry {s t : State} (h : exec .asl s = .next t) : t.p.getLsbD 0 = t.a.getLsbD 0 := by
  cases h
  exact (State.setZN_flagsKeptBut _ _ 0 (by decide)).trans (State.setCarry_getLsbD _ _ 0)

/-- Settles O21, by ASL's equation and the bits of a doubled byte. -/
theorem aslDoublesAndClearsCarry : Obligations.AslDoublesAndClearsCarry := by
  refine ⟨fun _ => rfl, fun s => ?_⟩
  have hexec := exec_asl s
  have hcarry := exec_asl_carry hexec
  obtain ⟨hz, hn⟩ := State.setZN_zero_negative ((s.setA (shiftLeftOne s.a)).setCarry _) (shiftLeftOne s.a)
  exact ⟨_, hexec, toNat_shiftLeftOne s.a, hcarry, hcarry.trans (shiftLeftOne_getLsbD_zero s.a), hz,
    hn.trans (shiftLeftOne_getLsbD_seven s.a), exec_flagsKeptBut hexec, exec_keeps_x (by decide) hexec,
    exec_controlKept (by decide) rfl hexec⟩

/-! ### AND -/

/-- A second AND with the same operand changes nothing more (R63). -/
theorem exec_and_idempotent {o : Byte} {s t : State} (h : exec (.and o) s = .next t) : exec (.and o) t = .next t := by
  rw [exec_and] at h
  cases h
  obtain ⟨hz, hn⟩ := State.setZN_zero_negative (s.setA (s.a &&& o)) (s.a &&& o)
  have hmask : s.a &&& o &&& o = s.a &&& o := by rw [BitVec.and_assoc, BitVec.and_self]
  rw [exec_and, State.setZN_a, State.setA_a, hmask]
  exact congrArg _ (State.setZN_of_flags hz hn)

/-- Settles O22, by AND's equation and the flag unit's bits. -/
theorem andMasksTheAccumulator : Obligations.AndMasksTheAccumulator := by
  refine ⟨fun _ _ => rfl, fun s h hb hlast => step_of_missing_operand h hb (by decide) hlast, fun o s => ?_⟩
  have hexec := exec_and o s
  obtain ⟨hz, hn⟩ := State.setZN_zero_negative (s.setA (s.a &&& o)) (s.a &&& o)
  exact ⟨_, hexec, fun _ => BitVec.getLsbD_and, hz, hn.trans BitVec.getLsbD_and, exec_flagsKeptBut hexec,
    exec_keeps_x (by simp) hexec, exec_controlKept (by simp) rfl hexec, exec_and_idempotent hexec⟩

/-! ### BIT -/

/-- A mask is 0 exactly when no bit is in both bytes. -/
theorem isZero_and_iff (a o : Byte) : isZero (a &&& o) = true ↔ ∀ j, (a.getLsbD j && o.getLsbD j) = false := by
  unfold isZero
  rw [decide_eq_true_iff]
  constructor
  · intro h j
    rw [← BitVec.getLsbD_and, h, BitVec.getLsbD_zero]
  · intro h
    refine BitVec.eq_of_getLsbD_eq fun j _ => ?_
    rw [BitVec.getLsbD_and, h j, BitVec.getLsbD_zero]

/-- The three flags BIT writes (R64). -/
theorem exec_bit_flags {o : Byte} {s t : State} (h : exec (.bit o) s = .next t) :
    t.p.getLsbD 1 = isZero (s.a &&& o) ∧ t.p.getLsbD 6 = o.getLsbD 6 ∧ t.p.getLsbD 7 = o.getLsbD 7 := by
  cases h
  simp only [State.setNegative_getLsbD, State.setOverflow_getLsbD, State.setZero_getLsbD]
  exact ⟨rfl, rfl, rfl⟩

/-- Settles O23, by the flags BIT writes; BIT is not well-formed, so it is not decoded. -/
theorem bitTestsTheAccumulator : Obligations.BitTestsTheAccumulator := by
  refine ⟨fun _ _ _ h => Bool.false_ne_true (decode_wellFormed h), fun o s => ?_⟩
  have hexec := exec_bit o s
  obtain ⟨hz, hv, hn⟩ := exec_bit_flags hexec
  exact ⟨_, hexec, rfl, by rw [hz]; exact isZero_and_iff s.a o, hv, hn, exec_flagsKeptBut hexec,
    exec_keeps_x (by simp) hexec, exec_controlKept (by simp) rfl hexec⟩

/-! ### LDA -/

/-- Bit 7 of a byte says whether it is 0x80 or more. -/
theorem getLsbD_seven_iff (v : Byte) : v.getLsbD 7 = true ↔ 0x80 ≤ v.toNat := by
  have hmsb := BitVec.msb_eq_decide v
  rw [BitVec.msb_eq_getLsbD_last] at hmsb
  simpa using congrArg (· = true) hmsb

/-- Settles O24, by LDA's equation and the flag unit's bits. -/
theorem ldaLoadsTheImmediate : Obligations.LdaLoadsTheImmediate := by
  refine ⟨fun _ _ => rfl, fun s h hb hlast => step_of_missing_operand h hb (by decide) hlast, fun v s => ?_⟩
  have hexec := exec_lda v s
  obtain ⟨hz, hn⟩ := State.setZN_zero_negative (s.setA v) v
  exact ⟨_, hexec, rfl, by rw [hz, decide_eq_true_iff], by rw [hn, getLsbD_seven_iff], exec_flagsKeptBut hexec,
    exec_keeps_x (by simp) hexec, exec_controlKept (by simp) rfl hexec⟩

end Sys2Proof.Machine
end

section
/-! Who writes and reads Carry, Overflow, Zero and Negative (R18 to R21). -/

namespace Sys2Proof.Machine

theorem carry_mem_writtenFlags_iff (i : Instr) : 0 ∈ writtenFlags i ↔ i.writesCarry = true := by
  cases i <;> simp [writtenFlags, Instr.writesCarry]

theorem zero_or_negative_mem_writtenFlags_iff (i : Instr) :
    (1 ∈ writtenFlags i ∨ 7 ∈ writtenFlags i) ↔ i.writesZN = true := by
  cases i <;> simp [writtenFlags, Instr.writesZN]

theorem overflow_mem_writtenFlags {i : Instr} (h : 6 ∈ writtenFlags i) : ∃ o, i = .bit o := by
  cases i with
  | bit o => exact ⟨o, rfl⟩
  | halt | asl | clc | and _ | bmi _ | bvc _ | bcc _ | lda _ | tax | bcs _ | bne _ | beq _ | bpl _ =>
    simp [writtenFlags] at h

/-- Settles O33: Zero and Negative are among the bits a handler writes exactly for the five. -/
theorem zeroAndNegativeHaveFiveWriters : Obligations.ZeroAndNegativeHaveFiveWriters := by
  intro i s t hw h
  have hnot : ¬ (1 ∈ writtenFlags i ∨ 7 ∈ writtenFlags i) := by
    rw [zero_or_negative_mem_writtenFlags_iff, hw]
    exact Bool.false_ne_true
  rw [not_or] at hnot
  obtain ⟨h1, h7⟩ := hnot
  exact ⟨exec_flagsKeptBut h 1 h1, exec_flagsKeptBut h 7 h7⟩

/-! ### Overflow -/

theorem exec_keeps_overflow {i : Instr} {s t : State} (hi : ∀ o, i ≠ .bit o) (h : exec i s = .next t) :
    t.p.getLsbD 6 = s.p.getLsbD 6 := by
  refine exec_flagsKeptBut h 6 fun h6 => ?_
  obtain ⟨o, rfl⟩ := overflow_mem_writtenFlags h6
  exact hi o rfl

theorem steps_keep_overflow : ∀ k s t, steps k s = .next t → t.p.getLsbD 6 = s.p.getLsbD 6 :=
  steps_of_handlers (R := fun s t => t.p.getLsbD 6 = s.p.getLsbD 6)
    (fun ⟨_, _, _, _, hp, _⟩ => by rw [hp]) (fun hst htu => htu.trans hst)
    (fun hwf h => exec_keeps_overflow (fun o ho => by rw [ho] at hwf; cases hwf) h)

theorem exec_bit_overflow {o : Byte} {s t : State} (h : exec (.bit o) s = .next t) :
    t.p.getLsbD 6 = o.getLsbD 6 := by
  obtain ⟨-, hv, -⟩ := exec_bit_flags h
  exact hv

/-- Settles O32: BIT alone writes Overflow, and no step runs it. -/
theorem overflowIsKeptByEveryRun : Obligations.OverflowIsKeptByEveryRun :=
  ⟨fun _ _ _ h => exec_bit_overflow h, fun _ _ _ hi h => exec_keeps_overflow hi h, steps_keep_overflow,
    fun _ _ => branchesOn_of_branchCase rfl, State.reset_getLsbD 6⟩

/-! ### Zero and Negative against `A` -/

theorem ZnFollowA.of_dataKept {s t : State} (hkept : DataKept s t) (hzn : ZnFollowA s) : ZnFollowA t := by
  obtain ⟨ha, -, -, -, hp, -⟩ := hkept
  unfold ZnFollowA
  rw [ha, hp]
  exact hzn

theorem exec_znFollowA {i : Instr} {s t : State} (hwf : i.wellFormed = true) (hzn : ZnFollowA s)
    (h : exec i s = .next t) : ZnFollowA t := by
  cases i with
  | bit _ | bpl _ => cases hwf
  | halt => cases h; exact hzn
  | clc =>
    cases h
    obtain ⟨hz, hn⟩ := hzn
    exact ⟨(s.setCarry_getLsbD false 1).trans hz, (s.setCarry_getLsbD false 7).trans hn⟩
  | asl | and _ | lda _ | tax => cases h; exact State.setZN_znFollowA rfl
  | bmi _ | bvc _ | bcc _ | bcs _ | bne _ | beq _ => exact hzn.of_dataKept (dataKept_of_exec_branch rfl h)

/-- Settles O34: the writers of `A` and TAX apply the flag unit to the `A` they leave, and the rest keep all three. -/
theorem zeroAndNegativeFollowTheAccumulator : Obligations.ZeroAndNegativeFollowTheAccumulator :=
  ⟨fun _ _ _ hwf hzn h => exec_znFollowA hwf hzn h, fun k s t hzn h =>
    steps_of_handlers (R := fun s t => ZnFollowA s → ZnFollowA t) (fun hkept hzn => hzn.of_dataKept hkept)
      (fun hst htu hzn => htu (hst hzn)) (fun hwf h hzn => exec_znFollowA hwf hzn h) k s t h hzn⟩

/-! ### Carry -/

theorem exec_clears_carry {s t : State} (h : exec .asl s = .next t ∨ exec .clc s = .next t) :
    t.p.getLsbD 0 = false := by
  rcases h with h | h
  · rw [exec_asl_carry h]
    cases h
    exact shiftLeftOne_getLsbD_zero s.a
  · cases h
    exact s.setCarry_getLsbD false 0

theorem exec_keeps_carry {i : Instr} {s t : State} (hw : i.writesCarry = false) (h : exec i s = .next t) :
    t.p.getLsbD 0 = s.p.getLsbD 0 :=
  exec_flagsKeptBut h 0 (by rw [carry_mem_writtenFlags_iff, hw]; exact Bool.false_ne_true)

theorem exec_keeps_carry_clear {i : Instr} {s t : State} (hc : s.p.getLsbD 0 = false) (h : exec i s = .next t) :
    t.p.getLsbD 0 = false := by
  cases i with
  | asl => exact exec_clears_carry (.inl h)
  | clc => exact exec_clears_carry (.inr h)
  | halt | and _ | bmi _ | bvc _ | bcc _ | lda _ | tax | bcs _ | bne _ | beq _ | bit _ | bpl _ =>
    exact (exec_keeps_carry rfl h).trans hc

theorem steps_keep_carry_clear : ∀ k s t, steps k s = .next t → s.p.getLsbD 0 = false → t.p.getLsbD 0 = false :=
  steps_of_handlers (R := fun s t => s.p.getLsbD 0 = false → t.p.getLsbD 0 = false)
    (fun ⟨_, _, _, _, hp, _⟩ hc => by rw [hp]; exact hc) (fun hst htu hc => htu (hst hc))
    (fun _ h hc => exec_keeps_carry_clear hc h)

@[simp] theorem State.setCarry_a (s : State) (c : Bool) : (s.setCarry c).a = s.a := rfl

/-- The branches other than BCC and BCS are on another flag than Carry. -/
theorem branchCase_setCarry {i : Instr} (hbcc : ∀ o, i ≠ .bcc o) (hbcs : ∀ o, i ≠ .bcs o) (s : State) (c : Bool) :
    branchCase i (s.setCarry c) = branchCase i s := by
  cases i with
  | bcc o => exact absurd rfl (hbcc o)
  | bcs o => exact absurd rfl (hbcs o)
  | halt | asl | clc | and _ | lda _ | tax | bit _ => rfl
  | bmi _ | bvc _ | bne _ | beq _ | bpl _ => simp only [branchCase, State.setCarry_getLsbD]; rfl

/-- A branch on another flag than Carry carries another value of Carry through. -/
theorem exec_branch_setCarry {i : Instr} {s : State} {b : Bool × Byte} (c : Bool) (hb : branchCase i s = some b)
    (hb' : branchCase i (s.setCarry c) = some b) :
    exec i (s.setCarry c) = mapNext (fun t => t.setCarry c) (exec i s) := by
  rw [exec_of_branchCase hb, exec_of_branchCase hb', mapNext]
  exact congrArg _ (branch_comm (fun t => t.setCarry c) s _ _ _ rfl (fun _ => rfl) fun _ _ => rfl)

/-- Two states alike in `A`, `X`, `PC`, the run status and every flag but Carry. -/
def AlikeButCarry (t u : State) : Prop :=
  u.a = t.a ∧ u.x = t.x ∧ u.pc = t.pc ∧ u.status = t.status ∧ FlagsKeptBut [0] t u

theorem alikeButCarry_setCarry (t : State) (c : Bool) : AlikeButCarry t (t.setCarry c) :=
  ⟨rfl, rfl, rfl, rfl, fun j hj => (t.setCarry_getLsbD c j).trans (if_neg (by simpa using hj))⟩

theorem alikeButCarry_of_branch {i : Instr} {s t u : State} {b : Bool × Byte} {c : Bool}
    (hb : branchCase i s = some b) (hb' : branchCase i (s.setCarry c) = some b) (ht : exec i s = .next t)
    (hu : exec i (s.setCarry c) = .next u) : AlikeButCarry t u := by
  rw [exec_branch_setCarry c hb hb', ht] at hu
  cases hu
  exact alikeButCarry_setCarry t c

/-- No handler but BCC's and BCS's reads Carry. -/
theorem exec_alikeButCarry {i : Instr} {s t u : State} {c : Bool} (hbcc : ∀ o, i ≠ .bcc o) (hbcs : ∀ o, i ≠ .bcs o)
    (ht : exec i s = .next t) (hu : exec i (s.setCarry c) = .next u) : AlikeButCarry t u := by
  cases i with
  | bcc o => exact absurd rfl (hbcc o)
  | bcs o => exact absurd rfl (hbcs o)
  | halt => cases ht; cases hu; exact alikeButCarry_setCarry s.halt c
  | asl | clc | and _ | lda _ | tax | bit _ =>
    cases ht
    cases hu
    refine ⟨rfl, rfl, rfl, rfl, fun j hj => ?_⟩
    have h0 : j ≠ 0 := by simpa using hj
    simp [State.setZN_getLsbD, h0]
  | bmi _ | bvc _ | bne _ | beq _ | bpl _ =>
    exact alikeButCarry_of_branch rfl (branchCase_setCarry hbcc hbcs s c) ht hu

/-- Settles O31: the two writers of Carry write 0, and only the branches on Carry read it. -/
theorem carryIsNeverSet : Obligations.CarryIsNeverSet :=
  ⟨fun _ _ h => exec_clears_carry h, fun _ _ _ hw h => exec_keeps_carry hw h,
    fun k s t hc h => steps_keep_carry_clear k s t h hc, State.reset_getLsbD 0,
    fun _ _ => ⟨branchesOn_of_branchCase rfl, branchesOn_of_branchCase rfl⟩,
    fun _ _ _ _ _ hbcc hbcs ht hu => exec_alikeButCarry hbcc hbcs ht hu⟩

end Sys2Proof.Machine
end
